-- ==== Sys2Proof/Word.lean ====
section
/-! DEFINITION. The words of the KSG core. Every value of the hardware is unsigned and bit 0 is its least significant
bit (00_scope.md section 5); a sum of bytes is taken mod 256, which is what addition of `Byte` does (41_byte_generation.md R81). -/

namespace Sys2Proof

/-- An array entry, an index, a key byte, a data byte (`BYTE_W` = 8; 00_scope.md R3). -/
abbrev Byte := BitVec 8

/-- The key operand (`KEY_W` = 64; 00_scope.md R3). -/
abbrev KeyWord := BitVec 64

/-- The command word `CW` (30_encoding.md R52). -/
abbrev CommandWord := BitVec 66

/-- The response word `RSP` (30_encoding.md R56). -/
abbrev ResponseWord := BitVec 9

end Sys2Proof
end

