-- ==== Sys2Proof/Syntax.lean ====
section
/-! DEFINITION. The commands of the command port, one constructor per row of opcode_table.json (30_encoding.md R53). -/

namespace Sys2Proof

/-- A command with its operand. Ignored bits of the command word are no part of it (30_encoding.md R55: they are not stored). -/
inductive Instr where
  /-- `NOP` (42_translation.md R91). -/
  | nop
  /-- `LOADKEY key` (40_construction.md R70). -/
  | loadkey (key : KeyWord)
  /-- `XLATE din` (42_translation.md R90, R95). -/
  | xlate (din : Byte)
  /-- `WIPE` (43_destruction.md R100). -/
  | wipe
  deriving DecidableEq, Repr

/-- The mnemonic as opcode_table.json spells it. -/
def Instr.mnemonic : Instr → String
  | .nop => "NOP"
  | .loadkey _ => "LOADKEY"
  | .xlate _ => "XLATE"
  | .wipe => "WIPE"

end Sys2Proof
end

