-- ==== Sys2Proof/WellFormed.lean ====
section
/-! DEFINITION. What a well-formed command is, and which command words are canonical. -/

namespace Sys2Proof

/-- Every command is well formed: any 64-bit key is legal (30_encoding.md R54, 60_exceptions.md R121 (a)), any data byte is
legal (R121 (b)), and the operand's width is its type. No ill-formed term of `Instr` exists. -/
def Instr.wellFormed : Instr → Bool
  | .nop => true
  | .loadkey _ => true
  | .xlate _ => true
  | .wipe => true

/-- The canonical encodings (30_encoding.md R55): the ignored bits, all of `ARG` for `NOP` and `WIPE` and `ARG[63:8]` for
`XLATE`, are 0. A word that is not canonical is no error: the decoder reads it all the same. -/
def canonicalWord (w : CommandWord) : Bool :=
  match w.getLsbD 65, w.getLsbD 64 with
  | false, false => w.extractLsb' 0 64 == 0
  | false, true => true
  | true, false => w.extractLsb' 8 56 == 0
  | true, true => w.extractLsb' 0 64 == 0

end Sys2Proof
end

