-- ==== Sys2Proof/Decode.lean ====
section
/-! DEFINITION. The decoder and the encoder of command words, the opcode table's match and mask, and the text form
(30_encoding.md R52 to R58). -/

namespace Sys2Proof

/-- `OP` = `CW[65:64]` (30_encoding.md R52). -/
def opField (w : CommandWord) : BitVec 2 := w.extractLsb' 64 2

/-- `ARG[63:0]` = `CW[63:0]` (30_encoding.md R52); whole, it is `LOADKEY`'s key (R54). -/
def argField (w : CommandWord) : KeyWord := w.extractLsb' 0 64

/-- `ARG[7:0]` = `CW[7:0]`, `XLATE`'s data byte (30_encoding.md R54). -/
def dinField (w : CommandWord) : Byte := w.extractLsb' 0 8

/-- The decoder, total on 66-bit words (30_encoding.md R53, R57): the two bits of `OP`, most significant first, choose the
command; every other bit it does not name is ignored (R55). -/
def decode (w : CommandWord) : Instr :=
  match (opField w).getLsbD 1, (opField w).getLsbD 0 with
  | false, false => .nop
  | false, true => .loadkey (argField w)
  | true, false => .xlate (dinField w)
  | true, true => .wipe

/-- Why a number is no command word. -/
inductive DecodeRefusal where
  /-- The number needs more than the 66 bits `cmd_word` has (30_encoding.md R50, R52: there are no other lengths). Raised by
  `decodeNumber` only; the port itself cannot carry such a word, so no step meets it. Safe. -/
  | tooWide
  deriving DecidableEq, Repr

/-- The decoder on any number: a number of at most 66 bits is a command, a wider one is rejected by name. -/
def decodeNumber (n : Nat) : Except DecodeRefusal Instr :=
  if n < 2 ^ 66 then .ok (decode (BitVec.ofNat 66 n)) else .error .tooWide

/-- The command the decoder reads from a table word of `nbits` bits (log 9). The port takes the word whole, so there is no
byte order to lay it out in (20_memory.md R32: the key is the only multi-byte quantity). -/
def decodeTableWord (nbits w : Nat) : Option Instr :=
  match decodeNumber (w % 2 ^ nbits) with
  | .ok i => some i
  | .error _ => none

/-- The encoder: the canonical command word (30_encoding.md R52 to R55), `OP` above `ARG`, ignored bits 0. -/
def encode : Instr → CommandWord
  | .nop => 0b00#2 ++ 0#64
  | .loadkey key => 0b01#2 ++ key
  | .xlate din => 0b10#2 ++ (0#56 ++ din)
  | .wipe => 0b11#2 ++ 0#64

/-- A row of the encoding table of 30_encoding.md: a word `w` is the command of the row when `w &&& mask = pattern`. -/
structure OpcodeRow where
  mnemonic : String
  pattern : CommandWord
  mask : CommandWord
  deriving DecidableEq, Repr

/-- The encoding table of 30_encoding.md section 2, as opcode_table.json prints it. -/
def opcodeTable : List OpcodeRow :=
  [⟨"NOP", 0x00000000000000000#66, 0x30000000000000000#66⟩,
   ⟨"LOADKEY", 0x10000000000000000#66, 0x30000000000000000#66⟩,
   ⟨"XLATE", 0x20000000000000000#66, 0x30000000000000000#66⟩,
   ⟨"WIPE", 0x30000000000000000#66, 0x30000000000000000#66⟩]

/-- `w & mask = match` (30_encoding.md section 2). -/
def OpcodeRow.hits (r : OpcodeRow) (w : CommandWord) : Bool := w &&& r.mask == r.pattern

/-- The hexadecimal digit of a number below 16. DESIGN CHOICE (log 21): in lower case, where the spec writes operands in both. -/
def hexDigit (n : Nat) : Char := "0123456789abcdef".toList.getD n '?'

/-- `digits` hexadecimal digits of `n`, most significant first. -/
def hexDigits : (digits n : Nat) → List Char
  | 0, _ => []
  | d + 1, n => hexDigits d (n / 16) ++ [hexDigit (n % 16)]

/-- The text form of a command (30_encoding.md R58): the mnemonic, then its operand in hexadecimal. DESIGN CHOICE (log 21):
digits in lower case, as many as the operand is wide. -/
def Instr.text : Instr → String
  | .nop => "NOP"
  | .loadkey key => String.ofList ("LOADKEY 0x".toList ++ hexDigits 16 key.toNat)
  | .xlate din => String.ofList ("XLATE 0x".toList ++ hexDigits 2 din.toNat)
  | .wipe => "WIPE"

end Sys2Proof
end

