-- ==== Sys2Proof/Config.lean ====
section
/-! DEFINITION. The numeric parameters of the block (00_scope.md R3) and the one value the spec leaves open. -/

namespace Sys2Proof

/-- `N_PERM`: entries of the permutation array. -/
abbrev Config.nPerm : Nat := 256

/-- `KEY_LEN`: key bytes (`KEY_W / BYTE_W`). -/
abbrev Config.keyLen : Nat := 8

/-- `PRIME_COUNT`: byte-generation steps run and dropped at the end of construction (40_construction.md R75).
The literal is unaudited against the original code (93_implementation_defined.md U7; log 10). -/
abbrev Config.primeCount : Nat := 1024

/-- DESIGN CHOICE (log 7). A FREE VALUE: what `rsp_word` carries while `rsp_valid` is 0, which the spec leaves open
(93_implementation_defined.md U6: any value). No body, so no proof can lean on a value of it; applied to a counter, so
that it may differ from one clock edge to the next. -/
opaque Config.idleRspWord : Nat → ResponseWord

end Sys2Proof
end

