-- ==== Sys2Proof/Machine/State.lean ====
section
/-! DEFINITION. The state of the machine as plain data, the reasons a step can stop, and the state after reset. -/

namespace Sys2Proof.Machine

/-- The phase bit (10_state.md R13). -/
inductive Phase where
  /-- `EMPTY` = 0: no generator, before any construction or after destruction. -/
  | empty
  /-- `READY` = 1: initialized and primed, ready for translation. -/
  | ready
  deriving DecidableEq, Repr

/-- The index space of the permutation array, the block's only address space (20_memory.md R30), as (address, byte) cells in
one canonical form, `Memory.wf` of Machine/Ops.lean (log 1). -/
abbrev Memory := List Host.Cell

/-- All the architectural state (10_state.md R10 to R14), 2129 bits. -/
structure Block where
  /-- `S`, D0's `permutation`: 256 entries of 8 bits (10_state.md R10). -/
  perm : Memory
  /-- `i`, D0's `index_i` (10_state.md R11). -/
  indexI : Byte
  /-- `j`, D0's `index_j` (10_state.md R11). -/
  indexJ : Byte
  /-- `K`, D0's `key_bytes`: `K[0]` is the least significant byte of the key last loaded (10_state.md R12). -/
  keyBytes : Vector Byte Config.keyLen
  /-- The phase bit (10_state.md R13). -/
  phase : Phase
  deriving DecidableEq, Repr

/-- A response `(ERR, DATA)` (30_encoding.md R56). -/
structure Response where
  /-- `RSP[8]`: the command raised `NotKeyed` and changed nothing. -/
  err : Bool
  /-- `RSP[7:0]`: the translated byte of an `XLATE` carried out; 0x00 in every other case. -/
  data : Byte
  deriving DecidableEq, Repr

/-- What the host drives on the input pins at one clock edge (30_encoding.md R50). -/
structure Edge where
  /-- `rst`, active high. -/
  rst : Bool
  /-- `cmd_valid`. -/
  cmdValid : Bool
  /-- `cmd_word`. -/
  cmdWord : CommandWord
  /-- `rsp_ready`. -/
  rspReady : Bool
  deriving DecidableEq, Repr

/-- The machine: the block, its response port, and what the host will drive. -/
structure State where
  /-- The architectural state (10_state.md R14). -/
  block : Block
  /-- The response held at the response port until it is delivered (30_encoding.md R51). -/
  response : Option Response
  /-- The environment's input: the pin values at the clock edges to come, those at which the block is still busy with a
  command left out (log 3). No state of the block. -/
  edges : List Edge
  /-- The MODEL's record that a `NotKeyed` was raised in this run (93_implementation_defined.md U1: record it, never clear
  it within the run; log 2). Nothing the block does reads it. -/
  notKeyedSeen : Bool
  /-- The MODEL's counter of clock edges, read only by the free value of an idle `rsp_word` (log 7). -/
  edgeCount : Nat
  deriving DecidableEq, Repr

/-- Reasons to stop with a fault. -/
inductive Fault where
  /-- `NotKeyed` (60_exceptions.md R120), as the spec advises a model to observe it: the run has gone wrong (R124). Raised by
  `strictStep` of Safety.lean and by nothing else: for `step` it is the response `(1, 0x00)` and the machine goes on, as the
  hardware does. Safe: the observation stops where the hardware goes on. -/
  | notKeyed
  deriving DecidableEq, Repr

/-- Reasons to refuse an instruction. -/
inductive Refusal where
  /-- An instruction the model gives no meaning. Raised by no arm of `exec`: all four commands have theirs. Safe. -/
  | notModelled (mnemonic : String)
  deriving DecidableEq, Repr

/-- The block after reset (10_state.md R19): every entry of `S` 0x00 (no cell is listed, and an unlisted address reads 0x00),
`i` = `j` = 0x00, every entry of `K` 0x00, `EMPTY`. -/
def Block.reset : Block :=
  { perm := [], indexI := 0, indexJ := 0, keyBytes := Vector.replicate Config.keyLen 0, phase := .empty }

/-- The machine right after reset (10_state.md R19, 70_reset_and_hazards.md R140): the reset block, no response pending. The
host has driven nothing yet (log 6), and the model's own fields are at their start (log 2, log 7). -/
def State.reset : State :=
  { block := Block.reset, response := none, edges := [], notKeyedSeen := false, edgeCount := 0 }

end Sys2Proof.Machine
end

