-- ==== Sys2Proof/Machine/Ops.lean ====
section
/-! DEFINITION. The named operations over the array, the key store and the response port, and the raising of the one fault. -/

namespace Sys2Proof.Machine

/-- What an address that lists no cell reads as: the reset value of every entry of `S` (10_state.md R19). -/
def Memory.unlisted : Byte := 0x00

/-- `S[a]`. -/
def Memory.read : Memory → Nat → Byte
  | [], _ => Memory.unlisted
  | (k, v) :: m, a => if k = a then v else Memory.read m a

/-- The cells without the one at address `a`. -/
def Memory.erase (m : Memory) (a : Nat) : Memory := m.filter (fun c => c.1 ≠ a)

/-- A cell put before the first cell of a higher address. -/
def Memory.insert : Memory → Nat → Byte → Memory
  | [], a, v => [(a, v)]
  | (k, w) :: m, a, v => if a < k then (a, v) :: (k, w) :: m else (k, w) :: Memory.insert m a v

/-- `S[a] <- v`; writing what an unlisted address reads as lists no cell. -/
def Memory.write (m : Memory) (a : Nat) (v : Byte) : Memory :=
  if v = Memory.unlisted then m.erase a else (m.erase a).insert a v

/-- `swap(S[a], S[b])`: both reads before both writes (00_scope.md section 5). -/
def Memory.swap (m : Memory) (a b : Nat) : Memory := (m.write a (m.read b)).write b (m.read a)

/-- `for v in 0..255: S[v] <- f v`: all 256 locations are overwritten and there are no others (20_memory.md R30), so nothing
of the old array is left. -/
def Memory.fill (f : Nat → Byte) : Memory :=
  ((List.range Config.nPerm).map fun v => (v, f v)).filter fun c => c.2 ≠ Memory.unlisted

/-- The canonical form: addresses strictly rising, all of them locations of the array, and no cell equal to what an unlisted
address reads as. -/
abbrev Memory.wf (m : Memory) : Prop :=
  m.Pairwise (fun c d => c.1 < d.1) ∧ ∀ c ∈ m, c.1 < Config.nPerm ∧ c.2 ≠ Memory.unlisted

/-- `S[a]` for an 8-bit index (10_state.md R10): every index is in range (20_memory.md R30). -/
def Block.entry (b : Block) (a : Byte) : Byte := b.perm.read a.toNat

/-- `K[n mod 8]` (20_memory.md R30). -/
def Block.keyByte (b : Block) (n : Nat) : Byte :=
  b.keyBytes[n % Config.keyLen]'(Nat.mod_lt n (by decide))

/-- `respond(err, data)`: put the response on the response port (30_encoding.md R56). -/
def State.respond (s : State) (err : Bool) (data : Byte) : State := { s with response := some ⟨err, data⟩ }

/-- `raise NotKeyed` (60_exceptions.md R120, R124): the block is left exactly as it was, nothing is saved, control goes
nowhere, and the response `(1, 0x00)` is the whole report. The model records it for its own observation (log 2). There is no
return from it and nothing to restore (R124), so no operation stands beside it. -/
def State.raiseNotKeyed (s : State) : State := { s.respond true 0x00 with notKeyedSeen := true }

/-- Reset (70_reset_and_hazards.md R140, R141): the block becomes the reset block whatever it held, and a response not yet
delivered is lost. What the host drives later and the model's own record are not the block's (log 8). -/
def State.applyReset (s : State) : State := { s with block := Block.reset, response := none }

/-- The response is delivered (30_encoding.md R51). DESIGN CHOICE (log 20): `cmd_ready` is 1 again from the very next edge on,
where 93_implementation_defined.md U6 leaves its exact timing open. -/
def State.deliver (s : State) : State := { s with response := none }

end Sys2Proof.Machine
end

