-- ==== Sys2Proof/Machine/Generate.lean ====
section
/-! DEFINITION. The byte-generation step `NEXT()` (41_byte_generation.md R80 to R85). -/

namespace Sys2Proof.Machine

/-- `NEXT()` (41_byte_generation.md R80): step `i`, step `j` by the entry at the new `i` before the swap, swap the two
entries, and select the byte from the array as it stands after the swap. `K` and `phase` are neither read nor written. -/
def Block.next (b : Block) : Byte × Block :=
  let i := b.indexI + 1
  let j := b.indexJ + b.entry i
  let b' := { b with perm := b.perm.swap i.toNat j.toNat, indexI := i, indexJ := j }
  let t := b'.entry i + b'.entry j
  (b'.entry t, b')

/-- The state after `n` steps of `NEXT()`, their bytes dropped. -/
def Block.advance : Nat → Block → Block
  | 0, b => b
  | n + 1, b => Block.advance n b.next.2

end Sys2Proof.Machine
end

