-- ==== Sys2Proof/Machine/Operands.lean ====
section
/-! DEFINITION. Operand assembly: the split of the key into bytes, and the host's assembly of a key from a byte source. -/

namespace Sys2Proof.Machine

/-- `byte[k] = (key >> (8*k)) & 0xFF` (20_memory.md R32, 40_construction.md R71). -/
def keySlice (key : KeyWord) (k : Nat) : Byte := ((key >>> (8 * k)) &&& 0xFF#64).setWidth 8

/-- `KEYSPLIT(key)` (40_construction.md R71): `K[0]` is the least significant byte. -/
def keySplit (key : KeyWord) : Vector Byte Config.keyLen := Vector.ofFn fun k => keySlice key k.val

/-- The number whose bytes, least significant first, are the list. -/
def littleEndian : List Byte → Nat
  | [] => 0
  | b :: bs => b.toNat + 2 ^ 8 * littleEndian bs

/-- The host's key from an 8-byte source, interpreted little-endian (20_memory.md R33): source byte 0 is `key[7:0]`, source
byte 7 is `key[63:56]`. -/
def keyOfSource (src : Vector Byte Config.keyLen) : KeyWord := BitVec.ofNat 64 (littleEndian src.toList)

end Sys2Proof.Machine
end

