-- ==== Sys2Proof/Machine/Construction.lean ====
section
/-! DEFINITION. Construction: `LOADKEY` and its five steps (40_construction.md R70 to R77). -/

namespace Sys2Proof.Machine

/-- Step 1 (40_construction.md R71). -/
def Block.splitKey (b : Block) (key : KeyWord) : Block := { b with keyBytes := keySplit key }

/-- Step 2, `IDENTITY()` (40_construction.md R72): `S[v] <- v`. -/
def Block.identity (b : Block) : Block := { b with perm := Memory.fill fun v => BitVec.ofNat 8 v }

/-- One iteration of `SCHEDULE()` (40_construction.md R73) on the array and the accumulator `a`: the entry in the sum is read
before the swap. The accumulator is local to the step (10_state.md R20, 90_conflicts.md C7; log 16). -/
def scheduleStep (b : Block) (p : Memory × Byte) (n : Nat) : Memory × Byte :=
  let a := p.2 + p.1.read n + b.keyByte n
  (p.1.swap n a.toNat, a)

/-- Step 3, `SCHEDULE()` (40_construction.md R73): 256 iterations, ascending, once, with the accumulator starting at 0. -/
def Block.schedule (b : Block) : Block :=
  { b with perm := ((List.range Config.nPerm).foldl (scheduleStep b) (b.perm, 0x00)).1 }

/-- Step 4 (40_construction.md R74). -/
def Block.resetIndices (b : Block) : Block := { b with indexI := 0x00, indexJ := 0x00 }

/-- Step 5, `PRIME()` (40_construction.md R75): `PRIME_COUNT` times `NEXT()`, the bytes dropped. -/
def Block.prime (b : Block) : Block := Block.advance Config.primeCount b

/-- `LOADKEY key` on the block (40_construction.md R70): the five steps in order, then `READY`. -/
def Block.loadkey (b : Block) (key : KeyWord) : Block :=
  { ((b.splitKey key).identity.schedule.resetIndices).prime with phase := .ready }

/-- `LOADKEY key` (40_construction.md R70): in either phase, never failing (R76), answers `(0, 0x00)`. -/
def execLoadkey (key : KeyWord) (s : State) : Host.Outcome State Fault Refusal :=
  .next (State.respond { s with block := s.block.loadkey key } false 0x00)

end Sys2Proof.Machine
end

