-- ==== Sys2Proof/Machine/Destruction.lean ====
section
/-! DEFINITION. Destruction: `WIPE` (43_destruction.md R100 to R102). -/

namespace Sys2Proof.Machine

/-- `WIPE` on the block (43_destruction.md R100): every entry of `S`, `i`, `j` and every entry of `K` to 0x00, then `EMPTY`. -/
def Block.wipe (b : Block) : Block :=
  { b with
    perm := Memory.fill fun _ => 0x00
    indexI := 0x00
    indexJ := 0x00
    keyBytes := Vector.ofFn fun _ => 0x00
    phase := .empty }

/-- `WIPE` (43_destruction.md R100): in either phase, answers `(0, 0x00)`, in `EMPTY` too (R101). -/
def execWipe (s : State) : Host.Outcome State Fault Refusal :=
  .next (State.respond { s with block := s.block.wipe } false 0x00)

end Sys2Proof.Machine
end

