-- ==== Sys2Proof/Machine/Translation.lean ====
section
/-! DEFINITION. Translation: `XLATE` and `NOP` (42_translation.md R90, R91, R95). -/

namespace Sys2Proof.Machine

/-- `XLATE din`: in `READY` one `NEXT()` and the answer `(0, din XOR ks)` (42_translation.md R90); in `EMPTY` it raises
`NotKeyed`, runs no `NEXT()` and changes nothing (R95). -/
def execXlate (din : Byte) (s : State) : Host.Outcome State Fault Refusal :=
  match s.block.phase with
  | .ready => .next (State.respond { s with block := s.block.next.2 } false (din ^^^ s.block.next.1))
  | .empty => .next s.raiseNotKeyed

/-- `NOP` (42_translation.md R91): in either phase, nothing but the answer `(0, 0x00)`. -/
def execNop (s : State) : Host.Outcome State Fault Refusal := .next (s.respond false 0x00)

end Sys2Proof.Machine
end

