-- ==== Sys2Proof/Machine/Dispatch.lean ====
section
/-! DEFINITION. One arm per command. -/

namespace Sys2Proof.Machine

def exec (i : Instr) (s : State) : Host.Outcome State Fault Refusal :=
  match i with
  | .nop => Sys2Proof.Machine.execNop s
  | .loadkey key => Sys2Proof.Machine.execLoadkey key s
  | .xlate din => Sys2Proof.Machine.execXlate din s
  | .wipe => Sys2Proof.Machine.execWipe s

end Sys2Proof.Machine
end

