-- ==== Sys2Proof/Machine/Flags.lean ====
section
/-! DEFINITION. The one status flag and the response's flag: the block has no condition codes (10_state.md R13, R18). -/

namespace Sys2Proof.Machine

/-- The phase as a bit: `EMPTY` = 0, `READY` = 1 (10_state.md R13). -/
def Phase.bit : Phase → Bool
  | .empty => false
  | .ready => true

/-- The status word `STATUS`: `STATUS[0]` = `KEYED` = `phase` (10_state.md R18). -/
def Block.status (b : Block) : BitVec 1 := BitVec.ofBool b.phase.bit

/-- The response word: `RSP[8]` = `ERR`, `RSP[7:0]` = `DATA` (30_encoding.md R56). -/
def Response.word (r : Response) : ResponseWord := BitVec.ofBool r.err ++ r.data

end Sys2Proof.Machine
end

