-- ==== Sys2Proof/Machine/Port.lean ====
section
/-! DEFINITION. The pins: what the block drives, and what it does with a clock edge (30_encoding.md R50, R51;
70_reset_and_hazards.md R140, R141). -/

namespace Sys2Proof.Machine

/-- `rsp_valid`: a response is presented (30_encoding.md R51). DESIGN CHOICE (log 19): what the pin shows at an edge with
`rst` = 1, which 93_implementation_defined.md U6 leaves open, is what the state before that edge gives. -/
def State.rspValid (s : State) : Bool := s.response.isSome

/-- `cmd_ready`, given `rst`: 0 from the acceptance of a command until its response is delivered (30_encoding.md R51), and 0
while `rst` is asserted (70_reset_and_hazards.md R140). DESIGN CHOICE: it is 1 at every other edge, so it rises at the very
next edge after a delivery (log 20) and at the first edge without `rst` after a reset (log 8); its exact timing is open
(93_implementation_defined.md U6). -/
def State.cmdReady (s : State) (rst : Bool) : Bool := !rst && !s.rspValid

/-- `rsp_word`: the pending response; while `rsp_valid` is 0, a free value (93_implementation_defined.md U6; log 7).
DESIGN CHOICE (log 19): at an edge with `rst` = 1, where U6 leaves the pin open, it is what the state before that edge gives. -/
def State.rspWord (s : State) : ResponseWord :=
  match s.response with
  | some r => r.word
  | none => Config.idleRspWord s.edgeCount

/-- `st_keyed`: 1 when `phase = READY` (10_state.md R18). DESIGN CHOICE (log 19): at an edge with `rst` = 1, where
93_implementation_defined.md U6 leaves the pin open, it shows the phase before that edge. -/
def State.stKeyed (s : State) : Bool := s.block.phase.bit

/-- The state past the clock edge at hand, before anything that the edge does. -/
def State.popEdge (s : State) : State :=
  { s with edges := s.edges.tail, edgeCount := s.edgeCount + 1 }

/-- The command word accepted at the clock edge at hand: `cmd_valid` and `cmd_ready` are both 1 (30_encoding.md R51), and so
`rst` is 0 (60_exceptions.md R123). This is where a step fetches its instruction. -/
def State.acceptedWord (s : State) : Option CommandWord :=
  match s.edges with
  | [] => none
  | e :: _ => if e.cmdValid && s.cmdReady e.rst then some e.cmdWord else none

/-- The response delivered at the clock edge at hand: `rsp_valid` and `rsp_ready` are both 1 (30_encoding.md R51) and `rst` is
0, since reset wins (70_reset_and_hazards.md R141). -/
def State.deliveredResponse (s : State) : Option Response :=
  match s.edges with
  | [] => none
  | e :: _ => if e.rspReady && !e.rst then s.response else none

/-- A clock edge at which no command is accepted: reset if `rst`, else delivery of a pending response if `rsp_ready`, else
nothing; `cmd_word` is ignored (30_encoding.md R51). When the host drives nothing more, the block stays as it is (log 5). -/
def State.passEdge (s : State) : State :=
  match s.edges with
  | [] => s
  | e :: _ =>
    if e.rst then s.popEdge.applyReset
    else if e.rspReady then s.popEdge.deliver
    else s.popEdge

end Sys2Proof.Machine
end

