-- ==== Sys2Proof/Machine/Step.lean ====
section
/-! DEFINITION. One step: one clock edge of the host's input, a command accepted at it carried out whole. -/

namespace Sys2Proof.Machine

/-- One clock edge (30_encoding.md R51). A command accepted at it is carried out completely, as one step (00_scope.md R4; the
clock edges at which a real block is still busy with it are left out, log 3), and its response is then pending. -/
def step (s : State) : Host.Outcome State Fault Refusal :=
  match s.acceptedWord with
  | some w => exec (decode w) s.popEdge
  | none => .next s.passEdge

/-- The state whose next clock edge presents the command word `w` to a block that is ready to accept it (log 6): the edge is
put before the host's other edges, and a response still pending counts as delivered, since `cmd_ready` waits for that. -/
def State.withFetchWord (s : State) (nbits w : Nat) : State :=
  { s with
    response := none
    edges :=
      { rst := false, cmdValid := true, cmdWord := BitVec.ofNat 66 (w % 2 ^ nbits), rspReady := false } :: s.edges }

end Sys2Proof.Machine
end

