-- ==== Sys2Proof/Machine/HostSession.lean ====
section
/-! DEFINITION. What a host does with the block: the host-level operations and their expansion to commands (30_encoding.md R58,
42_translation.md R93 to R97), a run as its responses (44_properties.md, notation), and what a run of clock edges accepted and
delivered (30_encoding.md R51). Host storage (buffers) is no state of the block (20_memory.md R31; log 15). -/

namespace Sys2Proof.Machine

/-- One transaction: the command is carried out and the host takes its response, `step : State -> Command -> State × Response`
of 30_encoding.md R51. `none` where `exec` gives no next state or no response. -/
def State.transact (s : State) (i : Instr) : Option (State × Response) :=
  match exec i s with
  | .next t => t.response.map fun r => (t.deliver, r)
  | .fault _ => none
  | .refused _ => none

/-- The commands carried out in order: the state they leave and their responses, one per command (20_memory.md R37). -/
def runCommands : List Instr → State → Option (State × List Response)
  | [], s => some (s, [])
  | i :: is, s =>
    (s.transact i).bind fun (t, r) => (runCommands is t).map fun (u, rs) => (u, r :: rs)

/-- `create(key)` expands to `LOADKEY key` (30_encoding.md R58). -/
def createCommands (key : KeyWord) : List Instr := [.loadkey key]

/-- `translate(in, out, N)` expands to `XLATE in[t]` for `t` ascending (30_encoding.md R58, 42_translation.md R93), and to no
command at all for N = 0 (R94). -/
def translateCommands (input : List Byte) : List Instr := input.map .xlate

/-- `destroy(generator)` expands to `WIPE` (30_encoding.md R58). -/
def destroyCommands : List Instr := [.wipe]

/-- `translate(in, out, N)` (42_translation.md R93): the state it leaves, and `out`, the response data in order. -/
def translateBuffer (input : List Byte) (s : State) : Option (State × List Byte) :=
  (runCommands (translateCommands input) s).map fun (u, rs) => (u, rs.map Response.data)

/-- `translate` with one buffer for both directions (20_memory.md R36): `n` positions from position `t` on, each read, sent and
overwritten with its response before the next. DESIGN CHOICE (log 15): a position past the end of the buffer, an invalid buffer
by 42_translation.md R98, is stuck (`none`), as 93_implementation_defined.md U2 advises. -/
def translateInPlace : (n t : Nat) → List Byte → State → Option (State × List Byte)
  | 0, _, buf, s => some (s, buf)
  | n + 1, t, buf, s =>
    buf[t]?.bind fun d =>
      (s.transact (.xlate d)).bind fun (u, r) => translateInPlace n (t + 1) (buf.set t r.data) u

/-- A well-formed session (70_reset_and_hazards.md R143): `LOADKEY`, then `XLATE`s and `NOP`s, then `WIPE`. -/
def sessionCommands (key : KeyWord) (body : List Instr) : List Instr :=
  createCommands key ++ body ++ destroyCommands

/-- An `XLATE` or a `NOP`, what may stand between `LOADKEY` and `WIPE` (70_reset_and_hazards.md R143). -/
def isBodyCommand : Instr → Bool
  | .nop => true
  | .loadkey _ => false
  | .xlate _ => true
  | .wipe => false

/-- The number of `XLATE`s among the commands: the keystream bytes they consume (42_translation.md R90). -/
def xlateCount : List Instr → Nat
  | [] => 0
  | .xlate _ :: is => xlateCount is + 1
  | .nop :: is => xlateCount is
  | .loadkey _ :: is => xlateCount is
  | .wipe :: is => xlateCount is

/-- The block right after `LOADKEY key` of a block that held nothing. -/
def keyedBlock (key : KeyWord) : Block := Block.reset.loadkey key

/-- Exposed keystream byte `n` of a key, `ks(key, n)` (42_translation.md R96): the byte of the `n`-th `NEXT()` after priming,
`n` from 0. -/
def exposedByte (key : KeyWord) (n : Nat) : Byte := (Block.advance n (keyedBlock key)).next.1

/-- Two instances of the block (60_exceptions.md R129), each command sent to the one its Boolean names, with the responses
in the order they came. -/
def runPair : List (Bool × Instr) → State → State → Option (State × State × List (Bool × Response))
  | [], s, t => some (s, t, [])
  | (false, i) :: cs, s, t =>
    (s.transact i).bind fun (s', r) => (runPair cs s' t).map fun (u, v, rs) => (u, v, (false, r) :: rs)
  | (true, i) :: cs, s, t =>
    (t.transact i).bind fun (t', r) => (runPair cs s t').map fun (u, v, rs) => (u, v, (true, r) :: rs)

/-- What the pins showed over a run of clock edges: the commands accepted and the responses delivered, in order, and the state
it ended in. -/
structure History where
  accepted : List Instr
  delivered : List Response
  final : State
  deriving DecidableEq, Repr

/-- The history of `n` steps (30_encoding.md R51). -/
def history : Nat → State → History
  | 0, s => ⟨[], [], s⟩
  | n + 1, s =>
    match step s with
    | .next t =>
      ⟨(s.acceptedWord.map decode).toList ++ (history n t).accepted,
       s.deliveredResponse.toList ++ (history n t).delivered, (history n t).final⟩
    | .fault _ => ⟨[], [], s⟩
    | .refused _ => ⟨[], [], s⟩

/-- The two clock edges of one transaction: the canonical command word is presented, then the response is taken. -/
def transactionEdges (i : Instr) : List Edge :=
  [{ rst := false, cmdValid := true, cmdWord := encode i, rspReady := false },
   { rst := false, cmdValid := false, cmdWord := 0, rspReady := true }]

/-- The clock edges of a host that sends the commands one after another (70_reset_and_hazards.md R151). -/
def driveEdges (is : List Instr) : List Edge := is.flatMap transactionEdges

end Sys2Proof.Machine
end

