-- ==== Sys2Proof/Safety.lean ====
section
/-! DEFINITION. What counts as a good state and a good run, in the terms the statements use. -/

namespace Sys2Proof.Machine

/-- The array is a permutation: the map `a -> S[a]` is a bijection on 0..255 (10_state.md R15). -/
def Block.IsPermutation (b : Block) : Prop := Function.Bijective b.entry

/-- What every state of a run satisfies. -/
structure State.Inv (s : State) : Prop where
  /-- The array's cells are in their canonical form (the model's own; log 1). -/
  arrayCanonical : s.block.perm.wf
  /-- The permutation invariant (10_state.md R15). -/
  readyIsPermutation : s.block.phase = .ready → s.block.IsPermutation
  /-- In `EMPTY` everything is zero (10_state.md R15, R19; 43_destruction.md R100). -/
  emptyIsReset : s.block.phase = .empty → s.block = Block.reset
  /-- `ERR` = 1 only for a `NotKeyed`, with `DATA` 0x00, the block `EMPTY`, and the run marked (30_encoding.md R56, log 2). -/
  errorIsNotKeyed : ∀ r, s.response = some r → r.err = true →
    r.data = 0x00 ∧ s.block.phase = .empty ∧ s.notKeyedSeen = true

/-- A block in `READY` is the block some key leaves, some number of keystream bytes on (40_construction.md R77,
42_translation.md R93). -/
def State.IsKeystreamPosition (s : State) : Prop :=
  s.block.phase = .ready → ∃ key n, s.block = Block.advance n (keyedBlock key)

/-- A session has ended properly: `EMPTY`, with all sensitive state zero (70_reset_and_hazards.md R152). -/
def State.SessionEnded (s : State) : Prop := s.block = Block.reset

/-- `step` as the spec advises a model to observe it (60_exceptions.md R124, 42_translation.md R95): once a `NotKeyed` has been
raised the run has gone wrong, for good. -/
def strictStep (s : State) : Host.Outcome State Fault Refusal :=
  match step s with
  | .next t => if t.notKeyedSeen then .fault .notKeyed else .next t
  | .fault r => .fault r
  | .refused r => .refused r

end Sys2Proof.Machine
end

