-- ==== Sys2Proof/Certificates/Slice0/Obligations.lean ====
section
/-! DEFINITION. The statements for the provers, in the order of OBLIGATIONS.json. A docstring names the rule a statement follows;
where it rests on a choice of the model's, the log entry. -/

open Sys2Proof Sys2Proof.Machine

/-! Encoding -/

/-- Words of 95_test_vectors.md (P1, P2, P3, V15) and what they stand for (30_encoding.md R53, R55). -/
def Obligations.DecodeSampleWords : Prop :=
  decode 0x00000000000000000#66 = .nop ∧
  decode 0x10102030405060708#66 = .loadkey 0x0102030405060708#64 ∧
  decode 0x20000000000000041#66 = .xlate 0x41#8 ∧
  decode 0x2DEADBEEFCAFE0041#66 = .xlate 0x41#8 ∧
  decode 0x30000000000000000#66 = .wipe

/-- R53 and R54: all four values of `OP` are assigned, each to its command, with the operand in its place, and every key and
every data byte is some word's. -/
def Obligations.DecodeFollowsOpcode : Prop :=
  (∀ w : CommandWord,
    (opField w = 0b00#2 → decode w = .nop) ∧
    (opField w = 0b01#2 → decode w = .loadkey (w.extractLsb' 0 64)) ∧
    (opField w = 0b10#2 → decode w = .xlate (w.extractLsb' 0 8)) ∧
    (opField w = 0b11#2 → decode w = .wipe) ∧
    (opField w = 0b00#2 ∨ opField w = 0b01#2 ∨ opField w = 0b10#2 ∨ opField w = 0b11#2)) ∧
  (∀ key : KeyWord, decode (0b01#2 ++ key) = .loadkey key) ∧
  (∀ (ignored : BitVec 56) (din : Byte), decode (0b10#2 ++ (ignored ++ din)) = .xlate din)

/-- R55: words that differ in ignored bits only are the same command, and the canonical words, whose ignored bits are 0, are
those the encoder writes. -/
def Obligations.DecodeIgnoresUnusedBits : Prop :=
  (∀ v w : CommandWord, opField v = opField w →
    (opField v = 0b01#2 → argField v = argField w) →
    (opField v = 0b10#2 → dinField v = dinField w) → decode v = decode w) ∧
  (∀ w : CommandWord, canonicalWord w = true ↔ encode (decode w) = w)

/-- The encoding table of 30_encoding.md section 2: every word hits exactly one row, and that row is its command's. -/
def Obligations.TableRowsDecideTheCommand : Prop :=
  ∀ w : CommandWord, (opcodeTable.filter fun r => r.hits w).map OpcodeRow.mnemonic = [(decode w).mnemonic]

/-- 30_encoding.md section 2: decode and encode agree, for every well-formed command with every operand, and the encoding is
canonical. The model's choice (log 9): the command is also what the decoder reads from the number of the table's 72 bits, of
which the spec's section knows 66. -/
def Obligations.DecodeEncodeRoundTrip : Prop :=
  ∀ i : Instr, i.wellFormed = true →
    decode (encode i) = i ∧ canonicalWord (encode i) = true ∧ decodeTableWord 72 (encode i).toNat = some i

/-! The step -/

/-- R51, R53: at a clock edge with `cmd_valid` and `cmd_ready`, `step` is `exec` of the decoded command, on the state past that
edge, whose block and response port are untouched. The model's: the command is carried out whole in that one step (log 3,
log 4), and `cmd_ready` is 1 at every edge without `rst` at which no response is pending (log 8, log 20). -/
def Obligations.StepRunsAcceptedCommand : Prop :=
  ∀ (s : State) (e : Edge) (es : List Edge) (i : Instr),
    s.edges = e :: es → e.rst = false → e.cmdValid = true → s.response = none → decode e.cmdWord = i →
    step s = exec i s.popEdge ∧ s.popEdge.block = s.block ∧ s.popEdge.response = none ∧ s.popEdge.edges = es ∧
      s.popEdge.notKeyedSeen = s.notKeyedSeen

/-- The model's own (log 6): the word `withFetchWord` places is the one the next step runs, and nothing else is changed but a
response still pending. -/
def Obligations.PlacedWordRunsNext : Prop :=
  ∀ (s : State) (i : Instr), i.wellFormed = true →
    step (s.withFetchWord 72 (encode i).toNat) =
      exec i { s with response := none, edgeCount := s.edgeCount + 1 }

/-- R51, R150: in every state every command completes with exactly one response, and leaves the host's input alone. -/
def Obligations.EveryCommandAnswers : Prop :=
  ∀ (i : Instr) (s : State), ∃ t r, exec i s = .next t ∧ t.response = some r ∧ t.edges = s.edges ∧
    t.edgeCount = s.edgeCount ∧ s.transact i = some (t.deliver, r)

/-! Reset -/

/-- R19: after reset every entry of `S` is 0x00, `i` = `j` = 0x00, every entry of `K` 0x00, `EMPTY`, `st_keyed` 0, no response
pending; `WIPE` leaves the same block. -/
def Obligations.ResetStateIsZero : Prop :=
  (∀ a : Byte, State.reset.block.entry a = 0x00) ∧ State.reset.block.indexI = 0x00 ∧ State.reset.block.indexJ = 0x00 ∧
  (∀ n : Nat, State.reset.block.keyByte n = 0x00) ∧ State.reset.block.phase = .empty ∧ State.reset.stKeyed = false ∧
  State.reset.response = none ∧ ∀ b : Block, b.wipe = State.reset.block

/-- R140, R141, R123: a clock edge with `rst` gives the reset block from any state, drops a pending response, and accepts and
delivers nothing, whatever else the host drives; `cmd_ready` is 0 at that edge. The model's choice (log 8): `cmd_ready` is 1
at the next edge without `rst`, where R140 and U6 leave open when it rises. -/
def Obligations.ResetEdgeGivesResetState : Prop :=
  ∀ (s : State) (e : Edge) (es : List Edge), s.edges = e :: es → e.rst = true →
    s.cmdReady e.rst = false ∧ s.acceptedWord = none ∧ s.deliveredResponse = none ∧
    ∃ t, step s = .next t ∧ t.block = Block.reset ∧ t.response = none ∧ t.rspValid = false ∧ t.stKeyed = false ∧
      t.cmdReady false = true ∧ t.edges = es

/-! Invariants -/

/-- The reset state meets the invariant of Safety.lean (log 1, log 2 for its two clauses on the model's own fields). -/
def Obligations.ResetMeetsInvariant : Prop := State.reset.Inv ∧ State.reset.IsKeystreamPosition

/-- R15, R19: every step keeps the invariant: the array canonical (log 1), a permutation in `READY`, all zero in `EMPTY`, and
`ERR` only for a recorded `NotKeyed` (log 2). -/
def Obligations.StepKeepsInvariant : Prop :=
  ∀ s t : State, s.Inv → step s = .next t → t.Inv

/-- R77, R93: a block in `READY` is always the block some key leaves, some number of keystream bytes on. -/
def Obligations.StepKeepsKeystreamPosition : Prop :=
  ∀ s t : State, s.IsKeystreamPosition → step s = .next t → t.IsKeystreamPosition

/-- R110: after any command sequence, if `phase = READY` then `S` is a bijection on 0..255. -/
def Obligations.RunsKeepPermutation : Prop :=
  ∀ (cs : List Instr) (t : State) (rs : List Response),
    runCommands cs State.reset = some (t, rs) → t.block.phase = .ready → t.block.IsPermutation

/-! NOP -/

/-- R91: `NOP`, accepted in either phase, answers `(0, 0x00)` and changes nothing; every byte of the array reads as before. -/
def Obligations.NopDoesNothing : Prop :=
  (∀ s : State, ∃ t, exec .nop s = .next t ∧ t.response = some ⟨false, 0x00⟩ ∧ t.block = s.block ∧
    (∀ a : Nat, t.block.perm.read a = s.block.perm.read a) ∧
    t.edges = s.edges ∧ t.notKeyedSeen = s.notKeyedSeen ∧ t.edgeCount = s.edgeCount) ∧
  ∀ w : CommandWord, opField w = 0b00#2 → decode w = .nop

/-- R114: taking the `NOP`s out of a command sequence changes no other response and no state. -/
def Obligations.NopsChangeNothing : Prop :=
  ∀ (cs : List Instr) (s t : State) (rs : List Response), runCommands cs s = some (t, rs) →
    ∃ t', runCommands (cs.filter fun i => i ≠ .nop) s =
        some (t', ((cs.zip rs).filter fun p => p.1 ≠ .nop).map Prod.snd) ∧
      t'.block = t.block ∧ t'.notKeyedSeen = t.notKeyedSeen

/-! Construction -/

/-- R70, R75, R76: `LOADKEY` completes in every state, for every key, with `(0, 0x00)`; it leaves `READY`, the key's bytes in
`K`, `i` = 0x00 and the array a permutation, and leaves the host's input and the model's record alone. The model's choice
(log 1): an address from 256 on, of which the array has none, reads as what an unlisted address does. -/
def Obligations.LoadkeyCompletes : Prop :=
  ∀ (key : KeyWord) (s : State), ∃ t, exec (.loadkey key) s = .next t ∧ t.response = some ⟨false, 0x00⟩ ∧
    t.block = s.block.loadkey key ∧ t.block.phase = .ready ∧ t.stKeyed = true ∧ t.block.indexI = 0x00 ∧
    t.block.keyBytes = keySplit key ∧ t.block.IsPermutation ∧
    (∀ a : Nat, Config.nPerm ≤ a → t.block.perm.read a = Memory.unlisted) ∧
    t.edges = s.edges ∧ t.notKeyedSeen = s.notKeyedSeen ∧ t.edgeCount = s.edgeCount

/-- R77: the state after `LOADKEY key` is a function of `key` alone; two with the same key leave what one leaves, and an
intermediate `WIPE` makes no difference. -/
def Obligations.LoadkeyDependsOnKeyOnly : Prop :=
  ∀ (b c : Block) (key : KeyWord), b.loadkey key = c.loadkey key ∧ (b.loadkey key).loadkey key = b.loadkey key ∧
    b.wipe.loadkey key = b.loadkey key

/-- R71: `KEYSPLIT` writes `K[k] = (key >> (8*k)) & 0xFF`, bits 8k+7 to 8k of the key, for all eight k, and nothing else. -/
def Obligations.KeySplitIsLittleEndian : Prop :=
  ∀ (b : Block) (key : KeyWord), (∀ (k : Nat) (hk : k < Config.keyLen),
      (b.splitKey key).keyBytes[k] = key.extractLsb' (8 * k) 8 ∧
      ((b.splitKey key).keyBytes[k]).toNat = key.toNat / 2 ^ (8 * k) % 256) ∧
    (b.splitKey key).perm = b.perm ∧ (b.splitKey key).indexI = b.indexI ∧ (b.splitKey key).indexJ = b.indexJ ∧
    (b.splitKey key).phase = b.phase

/-- R33: of a key assembled from an 8-byte source, little-endian, source byte `k` becomes `K[k]`, and scheduling consumes the
bytes in the order they stand in the source. -/
def Obligations.SourceBytesBecomeKeyBytes : Prop :=
  ∀ (b : Block) (src : Vector Byte Config.keyLen),
    (keyOfSource src).extractLsb' 0 8 = src[0] ∧ (keyOfSource src).extractLsb' 56 8 = src[7] ∧
    (b.loadkey (keyOfSource src)).keyBytes = src ∧
    ∀ n : Nat, (b.splitKey (keyOfSource src)).keyByte n = src[n % Config.keyLen]'(Nat.mod_lt n (by decide))

/-- R72: the identity fill writes `S[v] = v` for all 256 entries, whatever the array held, and it is then a bijection. -/
def Obligations.IdentityFillsArray : Prop :=
  ∀ b : Block, (∀ v : Byte, b.identity.entry v = v) ∧ b.identity.IsPermutation ∧ b.identity.indexI = b.indexI ∧
    b.identity.indexJ = b.indexJ ∧ b.identity.keyBytes = b.keyBytes ∧ b.identity.phase = b.phase

/-- R73: scheduling is one forward pass of exactly 256 iterations: the accumulator starts at 0; in iteration `n` it becomes the
three-byte sum mod 256, with `S[n]` read before the swap of that iteration; then entries `n` and the accumulator's are
exchanged. Only `S` is written, and a bijection stays one. -/
def Obligations.ScheduleIsOneForwardPass : Prop :=
  ∀ b : Block,
    (∃ (acc : Nat → Nat) (arr : Nat → Nat → Byte), acc 0 = 0 ∧ (∀ x, arr 0 x = b.perm.read x) ∧
      (∀ n, n < 256 →
        acc (n + 1) = (acc n + (arr n n).toNat + (b.keyBytes[n % 8]'(Nat.mod_lt n (by decide))).toNat) % 256 ∧
        ∀ x, arr (n + 1) x =
          if x = n then arr n (acc (n + 1)) else if x = acc (n + 1) then arr n n else arr n x) ∧
      ∀ v : Byte, b.schedule.entry v = arr 256 v.toNat) ∧
    (b.IsPermutation → b.schedule.IsPermutation) ∧
    b.schedule.indexI = b.indexI ∧ b.schedule.indexJ = b.indexJ ∧ b.schedule.keyBytes = b.keyBytes ∧
    b.schedule.phase = b.phase

/-! Byte generation -/

/-- R80: the four steps of `NEXT()`, in order, on unsigned bytes with sums mod 256; `K` and `phase` are not written. -/
def Obligations.NextFollowsFourSteps : Prop :=
  ∀ b : Block,
    b.next.2.indexI.toNat = (b.indexI.toNat + 1) % 256 ∧
    b.next.2.indexJ.toNat = (b.indexJ.toNat + (b.entry b.next.2.indexI).toNat) % 256 ∧
    b.next.2.entry b.next.2.indexI = b.entry b.next.2.indexJ ∧
    b.next.2.entry b.next.2.indexJ = b.entry b.next.2.indexI ∧
    (∀ a : Byte, a ≠ b.next.2.indexI → a ≠ b.next.2.indexJ → b.next.2.entry a = b.entry a) ∧
    (∀ t : Byte,
      t.toNat = ((b.next.2.entry b.next.2.indexI).toNat + (b.next.2.entry b.next.2.indexJ).toNat) % 256 →
      b.next.1 = b.next.2.entry t) ∧
    b.next.2.keyBytes = b.keyBytes ∧ b.next.2.phase = b.phase

/-- R82 (a) to (c): `i` wraps; when `j` meets `i` the swap changes nothing and the byte is `S[2*S[i] mod 256]`; the selector sum
is the same before and after the swap, and where the selector is `i` or `j` the byte is the one the swap has just put there. -/
def Obligations.NextCornerCases : Prop :=
  (∀ b : Block, b.indexI = 0xFF → b.next.2.indexI = 0x00) ∧
  (∀ b : Block, (Block.advance 256 b).indexI = b.indexI) ∧
  (∀ b : Block, b.next.2.indexJ = b.next.2.indexI →
    (∀ a : Byte, b.next.2.entry a = b.entry a) ∧
    b.next.1 = b.entry (b.entry b.next.2.indexI + b.entry b.next.2.indexI)) ∧
  (∀ b : Block,
    b.next.2.entry b.next.2.indexI + b.next.2.entry b.next.2.indexJ =
      b.entry b.next.2.indexI + b.entry b.next.2.indexJ) ∧
  (∀ b : Block, b.entry b.next.2.indexI + b.entry b.next.2.indexJ = b.next.2.indexI →
    b.next.1 = b.entry b.next.2.indexJ) ∧
  (∀ b : Block, b.entry b.next.2.indexI + b.entry b.next.2.indexJ = b.next.2.indexJ →
    b.next.1 = b.entry b.next.2.indexI)

/-- R83: the only write of `NEXT()` to `S` is the swap of the entries at the new `i` and the new `j`, so a bijection stays a
bijection. -/
def Obligations.NextKeepsPermutation : Prop :=
  ∀ b : Block,
    (∀ a : Byte, b.next.2.entry a = b.entry (Equiv.swap b.next.2.indexI b.next.2.indexJ a)) ∧
    (b.IsPermutation → b.next.2.IsPermutation)

/-- R82 (a), R75, R11: `n` steps of `NEXT()` add `n` to `i` mod 256; after the 1024 of priming `i` is 0x00 for every key. -/
def Obligations.IndexICountsSteps : Prop :=
  (∀ (n : Nat) (b : Block), (Block.advance n b).indexI.toNat = (b.indexI.toNat + n) % 256) ∧
  ∀ (n : Nat) (b : Block) (key : KeyWord), (Block.advance n (b.loadkey key)).indexI.toNat = n % 256

/-- R84: on the all-zero array of the reset block `NEXT()` would return 0x00 for ever, leaving the array as it is (in the model,
no cell is listed: log 1). -/
def Obligations.NextOnZeroArrayReturnsZero : Prop :=
  ∀ n : Nat, (Block.advance n Block.reset).next.1 = 0x00 ∧ (Block.advance n Block.reset).perm = []

/-! Translation -/

/-- R90: `XLATE din` in `READY` runs one `NEXT()` and answers `(0, din XOR ks)`; `K` and `phase` are not written; neither the
byte `ks` nor the block left depends on `din`; `din` 0x00 returns `ks`, 0xFF its complement, `ks` 0x00. -/
def Obligations.XlateReadyResult : Prop :=
  (∀ s : State, s.block.phase = .ready → ∃ (b : Block) (ks : Byte), (ks, b) = s.block.next ∧
    ∀ din : Byte, exec (.xlate din) s = .next { s with block := b, response := some ⟨false, din ^^^ ks⟩ } ∧
      b.keyBytes = s.block.keyBytes ∧ b.phase = .ready ∧
      (din = 0x00 → din ^^^ ks = ks) ∧ (din = 0xFF → din ^^^ ks = ~~~ks) ∧ (din = ks → din ^^^ ks = 0x00)) ∧
  ∀ w : CommandWord, opField w = 0b10#2 → decode w = .xlate (w.extractLsb' 0 8)

/-- R90, R80: the frame of `XLATE` in `READY`: in the array only the entries at the new `i` and the new `j` may change, and
they hold each other's old value; `K`, `phase`, the host's input and the model's record are unchanged. -/
def Obligations.XlateFrame : Prop :=
  ∀ (din : Byte) (s : State) (i j : Byte), s.block.phase = .ready → i = s.block.indexI + 1 →
    j = s.block.indexJ + s.block.entry i →
    ∃ t, exec (.xlate din) s = .next t ∧ t.block.indexI = i ∧ t.block.indexJ = j ∧
      (∀ a : Nat, a ≠ i.toNat → a ≠ j.toNat → t.block.perm.read a = s.block.perm.read a) ∧
      t.block.perm.read i.toNat = s.block.perm.read j.toNat ∧ t.block.perm.read j.toNat = s.block.perm.read i.toNat ∧
      t.block.keyBytes = s.block.keyBytes ∧ t.block.phase = s.block.phase ∧ t.edges = s.edges ∧
      t.notKeyedSeen = s.notKeyedSeen ∧ t.edgeCount = s.edgeCount

/-- R95: `XLATE din` in `EMPTY` raises `NotKeyed`: the block is unchanged, every byte of the array reads as before, and the
answer is `(1, 0x00)` whatever `din` is; the model records it (log 2). -/
def Obligations.XlateEmptyRaisesNotKeyed : Prop :=
  ∀ (din : Byte) (s : State), s.block.phase = .empty →
    exec (.xlate din) s = .next { s with response := some ⟨true, 0x00⟩, notKeyedSeen := true } ∧
    ∃ t, exec (.xlate din) s = .next t ∧ t.block = s.block ∧
      ∀ a : Nat, t.block.perm.read a = s.block.perm.read a

/-- R120: `ERR` = 1 is raised by `XLATE` in `EMPTY` and by nothing else; the response `(1, 0x00)` is the whole report, and the
block is unchanged. -/
def Obligations.ErrorOnlyFromXlateInEmpty : Prop :=
  ∀ (i : Instr) (s t : State) (r : Response), exec i s = .next t → t.response = some r →
    (r.err = true ↔ (∃ din, i = .xlate din) ∧ s.block.phase = .empty) ∧
    (r.err = true → r = ⟨true, 0x00⟩ ∧ r.word = 0x100#9 ∧ t.block = s.block)

/-- R124: `NotKeyed` is precise and not sticky: the commands after it answer as if the faulting one had not been sent, and
leave the same block. -/
def Obligations.NotKeyedIsNotSticky : Prop :=
  ∀ (din : Byte) (cs : List Instr) (s t : State) (rs : List Response), s.block.phase = .empty →
    runCommands cs s = some (t, rs) →
    ∃ u, runCommands (.xlate din :: cs) s = some (u, ⟨true, 0x00⟩ :: rs) ∧ u.block = t.block

/-- The model's record (log 2): it is set by a step that raises `NotKeyed` and by nothing else, and never cleared. -/
def Obligations.NotKeyedRecordIsExact : Prop :=
  ∀ s t : State, step s = .next t →
    (t.notKeyedSeen = true ↔
      s.notKeyedSeen = true ∨ (s.block.phase = .empty ∧ ∃ w din, s.acceptedWord = some w ∧ decode w = .xlate din))

/-- The observation the spec advises (R124, log 2): `strictStep` never refuses, faults exactly when a `NotKeyed` has been
raised by then, and otherwise is `step`. -/
def Obligations.StrictStepStopsAtNotKeyed : Prop :=
  ∀ s : State, ∃ t, step s = .next t ∧
    (t.notKeyedSeen = false → strictStep s = .next t) ∧ (t.notKeyedSeen = true → strictStep s = .fault .notKeyed) ∧
    (s.notKeyedSeen = true → strictStep s = .fault .notKeyed)

/-- R93: `translate` after `LOADKEY key` and a body of `XLATE`s and `NOP`s with `p` `XLATE`s in it gives `out[t]` = `in[t]` XOR
exposed keystream byte `p + t`, each byte once and in order. -/
def Obligations.TranslateUsesConsecutiveKeystream : Prop :=
  ∀ (key : KeyWord) (body : List Instr) (input : List Byte) (s : State), (∀ i ∈ body, isBodyCommand i = true) →
    ∃ t u rs, runCommands (createCommands key ++ body) s = some (t, rs) ∧
      translateBuffer input t =
        some (u, input.mapIdx fun k d => d ^^^ exposedByte key (xlateCount body + k))

/-- R113, R94: translating a sequence in one call or in consecutive chunks gives the same output and the same state; length 0
leaves the state as it is. -/
def Obligations.TranslateInChunks : Prop :=
  (∀ s : State, translateBuffer [] s = some (s, [])) ∧
  ∀ (xs ys : List Byte) (s : State), ∃ t u v w, translateBuffer xs s = some (t, v) ∧ translateBuffer ys t = some (u, w) ∧
    translateBuffer (xs ++ ys) s = some (u, v ++ w)

/-- R36: with one buffer for both directions, each position read, sent and overwritten in turn, the result is that of
separate buffers. -/
def Obligations.TranslateInPlaceAgrees : Prop :=
  ∀ (buf : List Byte) (s : State), translateInPlace buf.length 0 buf s = translateBuffer buf s

/-- R97: if the first `XLATE` of a translation succeeds, all do: one response each, none with `ERR`, and the block stays
`READY`. -/
def Obligations.TranslationIsAllOrNothing : Prop :=
  ∀ (d : Byte) (ds : List Byte) (s t : State) (r : Response),
    s.transact (.xlate d) = some (t, r) → r.err = false →
    ∃ u rs, runCommands (translateCommands (d :: ds)) s = some (u, r :: rs) ∧ rs.length = ds.length ∧
      (∀ q ∈ rs, q.err = false) ∧ u.block.phase = .ready

/-- R117: the block after a translation depends on how many bytes were translated, never on their values. -/
def Obligations.KeystreamIndependentOfData : Prop :=
  ∀ (xs ys : List Byte) (s : State), xs.length = ys.length →
    ∃ t u v w, translateBuffer xs s = some (t, v) ∧ translateBuffer ys s = some (u, w) ∧ t.block = u.block

/-- R111: after `LOADKEY key`, the responses to any commands are the same in every instance and whatever went before, and so
is the block left. -/
def Obligations.SameKeySameResponses : Prop :=
  ∀ (key : KeyWord) (cs : List Instr) (s s' : State), ∃ t t' rs,
    runCommands (.loadkey key :: cs) s = some (t, rs) ∧ runCommands (.loadkey key :: cs) s' = some (t', rs) ∧
    t.block = t'.block

/-- R112: translating under a key and translating the result from a fresh `LOADKEY` of the same key gives the data back. -/
def Obligations.TranslationIsSelfInverse : Prop :=
  ∀ (key : KeyWord) (data : List Byte) (s s' : State), ∃ a b c a' b' r r',
    s.transact (.loadkey key) = some (a, r) ∧ translateBuffer data a = some (b, c) ∧
    s'.transact (.loadkey key) = some (a', r') ∧ translateBuffer c a' = some (b', data)

/-- R147: two data streams translated under the same key are XORed with the same bytes, so their ciphertexts differ by what
the data differ by. -/
def Obligations.KeyReuseExposesDifference : Prop :=
  ∀ (key : KeyWord) (xs ys : List Byte) (s s' : State), xs.length = ys.length → ∃ a a' b b' c c' r r',
    s.transact (.loadkey key) = some (a, r) ∧ translateBuffer xs a = some (b, c) ∧
    s'.transact (.loadkey key) = some (a', r') ∧ translateBuffer ys a' = some (b', c') ∧
    List.zipWith (· ^^^ ·) c c' = List.zipWith (· ^^^ ·) xs ys

/-! Destruction -/

/-- R100: `WIPE`, in either phase, leaves every entry of `S`, `i`, `j` and every entry of `K` 0x00 and `EMPTY`, which is the
reset block, and answers `(0, 0x00)`; nothing else of the machine changes. That an address from 256 on, of which the array has
none, reads 0x00 as well is the model's choice (log 1). -/
def Obligations.WipeClearsEverything : Prop :=
  (∀ s : State, ∃ t, exec .wipe s = .next t ∧ t.response = some ⟨false, 0x00⟩ ∧
    (∀ a : Nat, t.block.perm.read a = 0x00) ∧ t.block.indexI = 0x00 ∧ t.block.indexJ = 0x00 ∧
    (∀ n : Nat, t.block.keyByte n = 0x00) ∧ t.block.phase = .empty ∧ t.stKeyed = false ∧ t.block = Block.reset ∧
    t.edges = s.edges ∧ t.notKeyedSeen = s.notKeyedSeen ∧ t.edgeCount = s.edgeCount) ∧
  ∀ w : CommandWord, opField w = 0b11#2 → decode w = .wipe

/-- R101: `WIPE` in `EMPTY` (of a state that meets the invariant) leaves the block as it is and answers `(0, 0x00)`, and `WIPE`
is idempotent in every state. -/
def Obligations.WipeInEmptyIsNoOp : Prop :=
  (∀ s : State, s.Inv → s.block.phase = .empty →
    ∃ t, exec .wipe s = .next t ∧ t.block = s.block ∧ t.response = some ⟨false, 0x00⟩) ∧
  ∀ b : Block, b.wipe.wipe = b.wipe

/-- R102: no command after a `WIPE` can recover anything of what was wiped: two blocks, whatever they held, answer any commands
alike from the `WIPE` on. -/
def Obligations.NothingSurvivesWipe : Prop :=
  ∀ (cs : List Instr) (s s' : State), ∃ t t' rs,
    runCommands (.wipe :: cs) s = some (t, rs) ∧ runCommands (.wipe :: cs) s' = some (t', rs) ∧ t.block = t'.block

/-! The machine as a whole -/

/-- R14, R12: the responses to any commands depend on the array, the indices and the phase alone, not on the stored key bytes,
and on nothing outside the block. -/
def Obligations.KeyBytesNeverInfluenceResponses : Prop :=
  ∀ (cs : List Instr) (s s' : State), s.block.perm = s'.block.perm → s.block.indexI = s'.block.indexI →
    s.block.indexJ = s'.block.indexJ → s.block.phase = s'.block.phase →
    ∃ t t' rs, runCommands cs s = some (t, rs) ∧ runCommands cs s' = some (t', rs)

/-- R13, R103: a step takes the block from `EMPTY` to `READY` only by an accepted `LOADKEY`, and from `READY` to `EMPTY` only by
an accepted `WIPE` or by `rst`. -/
def Obligations.PhaseChangesOnlyByCommand : Prop :=
  ∀ s t : State, step s = .next t →
    (s.block.phase = .empty → t.block.phase = .ready →
      ∃ w key, s.acceptedWord = some w ∧ decode w = .loadkey key) ∧
    (s.block.phase = .ready → t.block.phase = .empty →
      (∃ w, s.acceptedWord = some w ∧ decode w = .wipe) ∨ ∃ e es, s.edges = e :: es ∧ e.rst = true)

/-- R10 to R12: what writes what: `K` changes only by `LOADKEY`, `WIPE` and `rst`; `S`, `i` and `j` only by these and by an
`XLATE` in `READY`. -/
def Obligations.StateWrittenOnlyByItsWriters : Prop :=
  ∀ s t : State, step s = .next t →
    (∃ e es, s.edges = e :: es ∧ e.rst = true) ∨
    (∃ w, s.acceptedWord = some w ∧ (decode w = .wipe ∨ ∃ key, decode w = .loadkey key)) ∨
    (t.block.keyBytes = s.block.keyBytes ∧
      ((∃ w din, s.acceptedWord = some w ∧ decode w = .xlate din ∧ s.block.phase = .ready) ∨
        (t.block.perm = s.block.perm ∧ t.block.indexI = s.block.indexI ∧ t.block.indexJ = s.block.indexJ)))

/-- R144: the lifecycle table, row by row, for states that meet the invariant. -/
def Obligations.LifecycleTable : Prop :=
  ∀ s : State, s.Inv →
    (s.block.phase = .empty →
      s.block = Block.reset ∧
      (∃ t, exec .nop s = .next t ∧ t.block = s.block ∧ t.response = some ⟨false, 0x00⟩) ∧
      (∀ key, ∃ t, exec (.loadkey key) s = .next t ∧ t.block = keyedBlock key ∧ t.block.phase = .ready ∧
        t.block.keyBytes = keySplit key ∧ t.response = some ⟨false, 0x00⟩) ∧
      (∀ din, ∃ t, exec (.xlate din) s = .next t ∧ t.block = s.block ∧ t.response = some ⟨true, 0x00⟩) ∧
      (∃ t, exec .wipe s = .next t ∧ t.block = s.block ∧ t.response = some ⟨false, 0x00⟩)) ∧
    (s.block.phase = .ready →
      (∃ t, exec .nop s = .next t ∧ t.block = s.block ∧ t.response = some ⟨false, 0x00⟩) ∧
      (∀ key, ∃ t, exec (.loadkey key) s = .next t ∧ t.block = keyedBlock key ∧ t.block.phase = .ready ∧
        t.block.keyBytes = keySplit key ∧ t.response = some ⟨false, 0x00⟩) ∧
      (∀ din, ∃ t, exec (.xlate din) s = .next t ∧ t.block = s.block.next.2 ∧ t.block.phase = .ready ∧
        t.block.keyBytes = s.block.keyBytes ∧ t.response = some ⟨false, din ^^^ s.block.next.1⟩) ∧
      (∃ t, exec .wipe s = .next t ∧ t.block = Block.reset ∧ t.response = some ⟨false, 0x00⟩)) ∧
    (∀ e es, s.edges = e :: es → e.rst = true →
      ∃ t, step s = .next t ∧ t.block = Block.reset ∧ t.response = none)

/-- R143, R152: a well-formed session, `LOADKEY`, `XLATE`s and `NOP`s, `WIPE`, from any state: no response has `ERR`, the run is
not marked, and it ends with the block as after reset. -/
def Obligations.SessionEndsClean : Prop :=
  ∀ (key : KeyWord) (body : List Instr) (s : State), (∀ i ∈ body, isBodyCommand i = true) →
    ∃ t rs, runCommands (sessionCommands key body) s = some (t, rs) ∧ rs.length = body.length + 2 ∧
      (∀ r ∈ rs, r.err = false) ∧ t.notKeyedSeen = s.notKeyedSeen ∧ t.SessionEnded

/-- R115: two instances do not interfere: whatever the order in which commands reach them, each answers, and ends, as if its
own commands had been sent to it alone. -/
def Obligations.InstancesDoNotInterfere : Prop :=
  ∀ (cs : List (Bool × Instr)) (s t : State), ∃ u v rs, runPair cs s t = some (u, v, rs) ∧
    runCommands ((cs.filter fun c => c.1 = false).map Prod.snd) s =
      some (u, (rs.filter fun r => r.1 = false).map Prod.snd) ∧
    runCommands ((cs.filter fun c => c.1 = true).map Prod.snd) t =
      some (v, (rs.filter fun r => r.1 = true).map Prod.snd)

/-! The pins -/

/-- R56: the response word: `ERR` in bit 8, `DATA` in bits 7 to 0; the word presented after each command. -/
def Obligations.ResponseWordLayout : Prop :=
  (∀ r : Response, r.word.getLsbD 8 = r.err ∧ r.word.extractLsb' 0 8 = r.data) ∧
  ∀ s t : State,
    (∀ i, i = .nop ∨ i = .wipe ∨ (∃ key, i = .loadkey key) → exec i s = .next t → t.rspWord = 0x000#9) ∧
    (∀ din, exec (.xlate din) s = .next t → s.block.phase = .ready →
      t.rspWord = 0b0#1 ++ (din ^^^ s.block.next.1)) ∧
    (∀ din, exec (.xlate din) s = .next t → s.block.phase = .empty → t.rspWord = 0x100#9)

/-- R18: `STATUS[0]` and `st_keyed` are the phase, 1 when `READY`, and 0 after reset. -/
def Obligations.StatusShowsPhase : Prop :=
  (∀ s : State, (s.stKeyed = true ↔ s.block.phase = .ready) ∧ (s.block.status = 1#1 ↔ s.block.phase = .ready)) ∧
  State.reset.stKeyed = false ∧ State.reset.block.status = 0#1

/-- R51: while a response is pending (and `rst` is 0) `cmd_ready` is 0, no command is accepted whatever the host drives, and
the block and `rsp_word` hold still until an edge with `rsp_ready`, at which exactly that response is delivered. The model's
choice (log 20): `cmd_ready` is 1 from the very next edge without `rst` on. -/
def Obligations.HandshakeHoldsResponse : Prop :=
  ∀ (s : State) (e : Edge) (es : List Edge) (r : Response), s.edges = e :: es → e.rst = false → s.response = some r →
    s.cmdReady e.rst = false ∧ s.rspValid = true ∧ s.rspWord = r.word ∧ s.acceptedWord = none ∧
    ∃ t, step s = .next t ∧ t.block = s.block ∧ t.edges = es ∧
      (e.rspReady = false → s.deliveredResponse = none ∧ t.response = some r ∧ t.rspWord = s.rspWord) ∧
      (e.rspReady = true → s.deliveredResponse = some r ∧ t.response = none ∧ t.cmdReady false = true)

/-- R51, R37: over any run of clock edges without `rst`, from a state with nothing pending, the block does exactly what the
accepted commands do one after another, and the responses delivered, with the one still pending if any, are theirs in order:
the transaction-level step is an exact account of the pins. The model's: the edges at which the block is busy are left out of
the run (log 3, a design choice), so that a command and its response are one step (log 4). -/
def Obligations.HandshakeRefinesTransactions : Prop :=
  ∀ (n : Nat) (s : State), s.response = none → (∀ e ∈ s.edges, e.rst = false) →
    ∃ u rs, runCommands (history n s).accepted s = some (u, rs) ∧ u.block = (history n s).final.block ∧
      u.notKeyedSeen = (history n s).final.notKeyedSeen ∧
      rs = (history n s).delivered ++ (history n s).final.response.toList

/-- R51, R151: a host that presents its commands and takes each response before the next has all of them carried out, in order,
and gets all their responses. That two edges a command suffice, the response being there to take at the very next one, is the
model's choice: busy edges are left out (log 3), a command is one step (log 4), and `cmd_ready` rises right after a delivery
(log 20); R51 leaves the number of clocks open. -/
def Obligations.DrivenCommandsAreCarriedOut : Prop :=
  ∀ (cs : List Instr) (s : State), s.response = none → s.edges = driveEdges cs →
    ∃ u, (history (2 * cs.length) s).accepted = cs ∧ (history (2 * cs.length) s).final.edges = [] ∧
      (history (2 * cs.length) s).final.response = none ∧
      runCommands cs s = some (u, (history (2 * cs.length) s).delivered) ∧
      u.block = (history (2 * cs.length) s).final.block

/-! Construction as a whole -/

/-- R70 to R75: `LOADKEY` is its five steps in order and nothing between them, said without the model's own steps but `NEXT()`:
the bytes of the key in `K`; `arr 0` the identity array, `arr n` the array before iteration `n` of scheduling and `acc n` its
accumulator, 256 iterations; `run 0` the block before priming, with the scheduled array and both indices 0, and `run n` the
block after `n` discarded steps of `NEXT()`, exactly 1024 of them; then `READY`, and the first byte a host can obtain is the
1025th of the unprimed keystream. -/
def Obligations.LoadkeyIsItsFiveSteps : Prop :=
  ∀ (key : KeyWord) (s : State), ∃ (t : State) (acc : Nat → Nat) (arr : Nat → Nat → Byte) (run : Nat → Block),
    exec (.loadkey key) s = .next t ∧ t.response = some ⟨false, 0x00⟩ ∧
    (∀ (k : Nat) (hk : k < 8), (run 0).keyBytes[k] = key.extractLsb' (8 * k) 8) ∧
    (∀ x, x < 256 → (arr 0 x).toNat = x) ∧
    acc 0 = 0 ∧
    (∀ n, n < 256 →
      acc (n + 1) = (acc n + (arr n n).toNat + key.toNat / 2 ^ (8 * (n % 8)) % 256) % 256 ∧
      ∀ x, arr (n + 1) x =
        if x = n then arr n (acc (n + 1)) else if x = acc (n + 1) then arr n n else arr n x) ∧
    (∀ v : Byte, (run 0).entry v = arr 256 v.toNat) ∧
    (run 0).indexI = 0x00 ∧ (run 0).indexJ = 0x00 ∧
    (∀ n, n < 1024 → run (n + 1) = (run n).next.2) ∧
    t.block = { run 1024 with phase := .ready } ∧ t.block.indexI = 0x00 ∧
    ∀ din : Byte, ∃ u, exec (.xlate din) t.deliver = .next u ∧ u.response = some ⟨false, din ^^^ (run 1024).next.1⟩
end

