-- ==== Sys2Proof/Laws/Memory.lean ====
section
/-! SUPPORT. The laws of the array: what a read gives after each operation, that every operation keeps the canonical form, and
that canonical arrays with the same entries are the same data. -/

namespace Sys2Proof.Machine

@[simp] theorem Memory.read_nil (a : Nat) : Memory.read [] a = Memory.unlisted := rfl

theorem Memory.read_cons (k : Nat) (v : Byte) (m : Memory) (a : Nat) :
    Memory.read ((k, v) :: m) a = if k = a then v else Memory.read m a := rfl

theorem Memory.read_eq_unlisted (m : Memory) (a : Nat) (h : ∀ c ∈ m, c.1 ≠ a) : m.read a = Memory.unlisted := by
  induction m with
  | nil => rfl
  | cons c m ih =>
    obtain ⟨k, v⟩ := c
    rw [Memory.read_cons, if_neg (h (k, v) (by simp)), ih fun c hc => h c (by simp [hc])]

theorem Memory.read_filter (p : Host.Cell → Bool) (m : Memory) (a : Nat) (h : ∀ v, p (a, v) = true) :
    Memory.read (m.filter p) a = m.read a := by
  induction m with
  | nil => rfl
  | cons c m ih =>
    obtain ⟨k, v⟩ := c
    by_cases hk : k = a
    · subst hk; simp [h, Memory.read_cons]
    · by_cases hp : p (k, v) <;> simp [hp, Memory.read_cons, hk, ih]

theorem Memory.read_erase_same (m : Memory) (a : Nat) : (m.erase a).read a = Memory.unlisted :=
  Memory.read_eq_unlisted _ _ fun c hc => by simpa using (List.mem_filter.mp hc).2

theorem Memory.read_erase_other (m : Memory) {a x : Nat} (h : x ≠ a) : (m.erase a).read x = m.read x :=
  Memory.read_filter _ _ _ fun _ => by simpa using h

theorem Memory.read_insert_same (m : Memory) (a : Nat) (v : Byte) (h : ∀ c ∈ m, c.1 ≠ a) :
    (m.insert a v).read a = v := by
  induction m with
  | nil => simp [Memory.insert, Memory.read_cons]
  | cons c m ih =>
    obtain ⟨k, w⟩ := c
    have hk : k ≠ a := h (k, w) (by simp)
    simp only [Memory.insert]
    split
    · simp [Memory.read_cons]
    · rw [Memory.read_cons, if_neg hk, ih fun c hc => h c (by simp [hc])]

theorem Memory.read_insert_other (m : Memory) {a x : Nat} (v : Byte) (h : x ≠ a) :
    (m.insert a v).read x = m.read x := by
  induction m with
  | nil => simp [Memory.insert, Memory.read_cons, h.symm]
  | cons c m ih =>
    obtain ⟨k, w⟩ := c
    simp only [Memory.insert]
    split
    · rw [Memory.read_cons, if_neg h.symm]
    · rw [Memory.read_cons, Memory.read_cons, ih]

theorem Memory.erase_ne (m : Memory) (a : Nat) : ∀ c ∈ m.erase a, c.1 ≠ a :=
  fun c hc => by simpa using (List.mem_filter.mp hc).2

@[simp] theorem Memory.read_write_same (m : Memory) (a : Nat) (v : Byte) : (m.write a v).read a = v := by
  unfold Memory.write
  split
  · next h => rw [Memory.read_erase_same, h]
  · exact Memory.read_insert_same _ _ _ (Memory.erase_ne m a)

theorem Memory.read_write_other (m : Memory) {a x : Nat} (v : Byte) (h : x ≠ a) :
    (m.write a v).read x = m.read x := by
  unfold Memory.write
  split
  · exact Memory.read_erase_other m h
  · rw [Memory.read_insert_other _ _ h, Memory.read_erase_other m h]

/-- A read after a write, at any address. -/
theorem Memory.read_write (m : Memory) (a x : Nat) (v : Byte) :
    (m.write a v).read x = if x = a then v else m.read x := by
  split
  · next h => rw [h, Memory.read_write_same]
  · next h => exact Memory.read_write_other m v h

/-- A read after a swap: the two entries are exchanged and no other is touched. -/
theorem Memory.read_swap (m : Memory) (a b x : Nat) :
    (m.swap a b).read x = if x = b then m.read a else if x = a then m.read b else m.read x := by
  simp only [Memory.swap, Memory.read_write]

/-- A read after a swap, as the permutation of addresses that it is. -/
theorem Memory.read_swap_eq (m : Memory) (a b x : Nat) : (m.swap a b).read x = m.read (Equiv.swap a b x) := by
  rw [Memory.read_swap, Equiv.swap_apply_def]
  split_ifs <;> simp_all

theorem Memory.read_map_range (f : Nat → Byte) (l : List Nat) (a : Nat) (h : a ∈ l) :
    Memory.read (l.map fun v => (v, f v)) a = f a := by
  induction l with
  | nil => simp at h
  | cons k l ih =>
    rw [List.map_cons, Memory.read_cons]
    split
    · next hk => rw [hk]
    · next hk => exact ih ((List.mem_cons.mp h).resolve_left fun e => hk e.symm)

theorem Memory.read_filter_listed (m : Memory) (a : Nat) (hn : m.Pairwise (fun c d => c.1 < d.1)) :
    Memory.read (m.filter fun c => c.2 ≠ Memory.unlisted) a = m.read a := by
  induction m with
  | nil => rfl
  | cons c m ih =>
    obtain ⟨k, v⟩ := c
    rw [List.pairwise_cons] at hn
    by_cases hv : v = Memory.unlisted
    · rw [List.filter_cons_of_neg (by simp [hv]), ih hn.2, Memory.read_cons]
      split
      · next hk =>
        subst hk
        rw [hv, Memory.read_eq_unlisted m k fun c hc => Nat.ne_of_gt (hn.1 c hc)]
      · rfl
    · rw [List.filter_cons_of_pos (by simp [hv]), Memory.read_cons, Memory.read_cons, ih hn.2]

theorem Memory.pairwise_map_range (f : Nat → Byte) (n : Nat) :
    ((List.range n).map fun v => ((v, f v) : Host.Cell)).Pairwise (fun c d => c.1 < d.1) := by
  rw [List.pairwise_map]
  exact List.pairwise_lt_range

/-- A read after a fill, at a location of the array. -/
theorem Memory.read_fill (f : Nat → Byte) (a : Nat) (h : a < Config.nPerm) : (Memory.fill f).read a = f a := by
  rw [Memory.fill, Memory.read_filter_listed _ _ (Memory.pairwise_map_range f _),
    Memory.read_map_range f _ a (List.mem_range.mpr h)]

theorem Memory.wf_nil : Memory.wf [] := by simp [Memory.wf]

theorem Memory.wf_erase {m : Memory} (h : m.wf) (a : Nat) : (m.erase a).wf :=
  ⟨h.1.filter _, fun c hc => h.2 c (List.mem_filter.mp hc).1⟩

theorem Memory.mem_insert (m : Memory) (a : Nat) (v : Byte) (c : Host.Cell) :
    c ∈ m.insert a v → c = (a, v) ∨ c ∈ m := by
  induction m with
  | nil => simp [Memory.insert]
  | cons d m ih =>
    obtain ⟨k, w⟩ := d
    simp only [Memory.insert]
    split
    · simp
    · intro hc
      rcases List.mem_cons.mp hc with rfl | hc
      · simp
      · rcases ih hc with rfl | hc <;> simp [*]

theorem Memory.wf_insert {m : Memory} (h : m.wf) {a : Nat} {v : Byte} (hm : ∀ c ∈ m, c.1 ≠ a) (ha : a < Config.nPerm)
    (hv : v ≠ Memory.unlisted) : (m.insert a v).wf := by
  constructor
  · induction m with
    | nil => simp [Memory.insert]
    | cons d m ih =>
      obtain ⟨k, w⟩ := d
      have hp := List.pairwise_cons.mp h.1
      simp only [Memory.insert]
      split
      · next hlt =>
        refine List.pairwise_cons.mpr ⟨fun c hc => ?_, h.1⟩
        rcases List.mem_cons.mp hc with rfl | hc
        · exact hlt
        · exact Nat.lt_trans hlt (hp.1 c hc)
      · next hge =>
        refine List.pairwise_cons.mpr ⟨fun c hc => ?_, ih ⟨hp.2, fun c hc => h.2 c (by simp [hc])⟩
          fun c hc => hm c (by simp [hc])⟩
        rcases Memory.mem_insert m a v c hc with rfl | hc
        · have := hm (k, w) (by simp)
          simp only at this ⊢
          omega
        · exact hp.1 c hc
  · intro c hc
    rcases Memory.mem_insert m a v c hc with rfl | hc
    · exact ⟨ha, hv⟩
    · exact h.2 c hc

/-- A write keeps the canonical form. -/
theorem Memory.wf_write {m : Memory} (h : m.wf) {a : Nat} (v : Byte) (ha : a < Config.nPerm) : (m.write a v).wf := by
  unfold Memory.write
  split
  · exact Memory.wf_erase h a
  · next hv => exact Memory.wf_insert (Memory.wf_erase h a) (Memory.erase_ne m a) ha hv

/-- A swap keeps the canonical form. -/
theorem Memory.wf_swap {m : Memory} (h : m.wf) {a b : Nat} (ha : a < Config.nPerm) (hb : b < Config.nPerm) :
    (m.swap a b).wf :=
  Memory.wf_write (Memory.wf_write h _ ha) _ hb

/-- A fill is in canonical form. -/
theorem Memory.wf_fill (f : Nat → Byte) : (Memory.fill f).wf := by
  refine ⟨(Memory.pairwise_map_range f _).filter _, fun c hc => ?_⟩
  obtain ⟨hc, hv⟩ := List.mem_filter.mp hc
  obtain ⟨v, hr, rfl⟩ := List.mem_map.mp hc
  exact ⟨List.mem_range.mp hr, by simpa using hv⟩

/-- The reset array is in canonical form. -/
theorem Memory.wf_reset : State.reset.block.perm.wf := Memory.wf_nil

/-- Filling with what an unlisted address reads as lists no cell. -/
theorem Memory.fill_unlisted : (Memory.fill fun _ => 0x00) = [] := by
  rw [Memory.fill, List.filter_eq_nil_iff]
  intro c hc
  obtain ⟨v, -, rfl⟩ := List.mem_map.mp hc
  simp [Memory.unlisted]

/-- In canonical form, a cell of the tail lies above the head's address, so the tail reads as unlisted there. -/
theorem Memory.read_tail_unlisted {k : Nat} {v : Byte} {m : Memory} (h : Memory.wf ((k, v) :: m)) {a : Nat} (ha : a ≤ k) :
    m.read a = Memory.unlisted :=
  Memory.read_eq_unlisted m a fun c hc => Nat.ne_of_gt (Nat.lt_of_le_of_lt ha ((List.pairwise_cons.mp h.1).1 c hc))

theorem Memory.wf_tail {c : Host.Cell} {m : Memory} (h : Memory.wf (c :: m)) : m.wf :=
  ⟨(List.pairwise_cons.mp h.1).2, fun d hd => h.2 d (by simp [hd])⟩

/-- Canonical arrays whose entries agree are the same data. -/
theorem Memory.ext_read {m n : Memory} (hm : m.wf) (hn : n.wf) (h : ∀ a, a < Config.nPerm → m.read a = n.read a) :
    m = n := by
  induction m generalizing n with
  | nil =>
    cases n with
    | nil => rfl
    | cons d n =>
      obtain ⟨l, w⟩ := d
      have hl := hn.2 (l, w) (by simp)
      have := h l hl.1
      rw [Memory.read_cons, if_pos rfl] at this
      exact absurd this.symm hl.2
  | cons c m ih =>
    obtain ⟨k, v⟩ := c
    have hk := hm.2 (k, v) (by simp)
    cases n with
    | nil =>
      have := h k hk.1
      rw [Memory.read_cons, if_pos rfl] at this
      exact absurd this hk.2
    | cons d n =>
      obtain ⟨l, w⟩ := d
      have hl := hn.2 (l, w) (by simp)
      have hkl : k = l := by
        by_contra hne
        rcases Nat.lt_or_gt_of_ne hne with hlt | hgt
        · have := h k hk.1
          rw [Memory.read_cons, if_pos rfl, Memory.read_cons, if_neg (Nat.ne_of_gt hlt),
            Memory.read_tail_unlisted hn (Nat.le_of_lt hlt)] at this
          exact hk.2 this
        · have := h l hl.1
          rw [Memory.read_cons, if_neg (Nat.ne_of_gt hgt), Memory.read_cons, if_pos rfl,
            Memory.read_tail_unlisted hm (Nat.le_of_lt hgt)] at this
          exact hl.2 this.symm
      subst hkl
      have hvw := h k hk.1
      rw [Memory.read_cons, if_pos rfl, Memory.read_cons, if_pos rfl] at hvw
      subst hvw
      rw [ih (Memory.wf_tail hm) (Memory.wf_tail hn) fun a ha => ?_]
      by_cases hak : k = a
      · subst hak
        rw [Memory.read_tail_unlisted hm (Nat.le_refl _), Memory.read_tail_unlisted hn (Nat.le_refl _)]
      · simpa [Memory.read_cons, hak] using h a ha

end Sys2Proof.Machine
end

