-- ==== Sys2Proof/Laws/State.lean ====
section
/-! SUPPORT. One lemma per field and update of the state, true by rfl. -/

namespace Sys2Proof.Machine

section respond
variable (s : State) (err : Bool) (data : Byte)
@[simp] theorem State.respond_block : (s.respond err data).block = s.block := rfl
@[simp] theorem State.respond_response : (s.respond err data).response = some ⟨err, data⟩ := rfl
@[simp] theorem State.respond_edges : (s.respond err data).edges = s.edges := rfl
@[simp] theorem State.respond_notKeyedSeen : (s.respond err data).notKeyedSeen = s.notKeyedSeen := rfl
@[simp] theorem State.respond_edgeCount : (s.respond err data).edgeCount = s.edgeCount := rfl
end respond

section others
variable (s : State)
@[simp] theorem State.raiseNotKeyed_block : s.raiseNotKeyed.block = s.block := rfl
@[simp] theorem State.raiseNotKeyed_response : s.raiseNotKeyed.response = some ⟨true, 0x00⟩ := rfl
@[simp] theorem State.raiseNotKeyed_edges : s.raiseNotKeyed.edges = s.edges := rfl
@[simp] theorem State.raiseNotKeyed_notKeyedSeen : s.raiseNotKeyed.notKeyedSeen = true := rfl
@[simp] theorem State.raiseNotKeyed_edgeCount : s.raiseNotKeyed.edgeCount = s.edgeCount := rfl

@[simp] theorem State.applyReset_block : s.applyReset.block = Block.reset := rfl
@[simp] theorem State.applyReset_response : s.applyReset.response = none := rfl
@[simp] theorem State.applyReset_edges : s.applyReset.edges = s.edges := rfl
@[simp] theorem State.applyReset_notKeyedSeen : s.applyReset.notKeyedSeen = s.notKeyedSeen := rfl
@[simp] theorem State.applyReset_edgeCount : s.applyReset.edgeCount = s.edgeCount := rfl

@[simp] theorem State.deliver_block : s.deliver.block = s.block := rfl
@[simp] theorem State.deliver_response : s.deliver.response = none := rfl
@[simp] theorem State.deliver_edges : s.deliver.edges = s.edges := rfl
@[simp] theorem State.deliver_notKeyedSeen : s.deliver.notKeyedSeen = s.notKeyedSeen := rfl
@[simp] theorem State.deliver_edgeCount : s.deliver.edgeCount = s.edgeCount := rfl

@[simp] theorem State.popEdge_block : s.popEdge.block = s.block := rfl
@[simp] theorem State.popEdge_response : s.popEdge.response = s.response := rfl
@[simp] theorem State.popEdge_edges : s.popEdge.edges = s.edges.tail := rfl
@[simp] theorem State.popEdge_notKeyedSeen : s.popEdge.notKeyedSeen = s.notKeyedSeen := rfl
@[simp] theorem State.popEdge_edgeCount : s.popEdge.edgeCount = s.edgeCount + 1 := rfl

variable (nbits w : Nat)
@[simp] theorem State.withFetchWord_block : (s.withFetchWord nbits w).block = s.block := rfl
@[simp] theorem State.withFetchWord_response : (s.withFetchWord nbits w).response = none := rfl
@[simp] theorem State.withFetchWord_notKeyedSeen : (s.withFetchWord nbits w).notKeyedSeen = s.notKeyedSeen := rfl
@[simp] theorem State.withFetchWord_edgeCount : (s.withFetchWord nbits w).edgeCount = s.edgeCount := rfl
end others

section reset
@[simp] theorem Block.reset_perm : Block.reset.perm = [] := rfl
@[simp] theorem Block.reset_indexI : Block.reset.indexI = 0x00 := rfl
@[simp] theorem Block.reset_indexJ : Block.reset.indexJ = 0x00 := rfl
@[simp] theorem Block.reset_phase : Block.reset.phase = .empty := rfl
@[simp] theorem State.reset_block : State.reset.block = Block.reset := rfl
@[simp] theorem State.reset_response : State.reset.response = none := rfl
@[simp] theorem State.reset_edges : State.reset.edges = [] := rfl
@[simp] theorem State.reset_notKeyedSeen : State.reset.notKeyedSeen = false := rfl
end reset

section construction
variable (b : Block) (key : KeyWord)
@[simp] theorem Block.splitKey_perm : (b.splitKey key).perm = b.perm := rfl
@[simp] theorem Block.splitKey_indexI : (b.splitKey key).indexI = b.indexI := rfl
@[simp] theorem Block.splitKey_indexJ : (b.splitKey key).indexJ = b.indexJ := rfl
@[simp] theorem Block.splitKey_keyBytes : (b.splitKey key).keyBytes = keySplit key := rfl
@[simp] theorem Block.splitKey_phase : (b.splitKey key).phase = b.phase := rfl
@[simp] theorem Block.identity_perm : b.identity.perm = Memory.fill fun v => BitVec.ofNat 8 v := rfl
@[simp] theorem Block.identity_indexI : b.identity.indexI = b.indexI := rfl
@[simp] theorem Block.identity_indexJ : b.identity.indexJ = b.indexJ := rfl
@[simp] theorem Block.identity_keyBytes : b.identity.keyBytes = b.keyBytes := rfl
@[simp] theorem Block.identity_phase : b.identity.phase = b.phase := rfl
@[simp] theorem Block.schedule_indexI : b.schedule.indexI = b.indexI := by
  simp only [Block.schedule]
@[simp] theorem Block.schedule_indexJ : b.schedule.indexJ = b.indexJ := by
  simp only [Block.schedule]
@[simp] theorem Block.schedule_keyBytes : b.schedule.keyBytes = b.keyBytes := by
  simp only [Block.schedule]
@[simp] theorem Block.schedule_phase : b.schedule.phase = b.phase := by
  simp only [Block.schedule]
@[simp] theorem Block.resetIndices_perm : b.resetIndices.perm = b.perm := rfl
@[simp] theorem Block.resetIndices_indexI : b.resetIndices.indexI = 0x00 := rfl
@[simp] theorem Block.resetIndices_indexJ : b.resetIndices.indexJ = 0x00 := rfl
@[simp] theorem Block.resetIndices_keyBytes : b.resetIndices.keyBytes = b.keyBytes := rfl
@[simp] theorem Block.resetIndices_phase : b.resetIndices.phase = b.phase := rfl
@[simp] theorem Block.loadkey_phase : (b.loadkey key).phase = .ready := rfl
end construction

section generation
variable (b : Block)
@[simp] theorem Block.next_indexI : b.next.2.indexI = b.indexI + 1 := rfl
@[simp] theorem Block.next_indexJ : b.next.2.indexJ = b.indexJ + b.entry (b.indexI + 1) := rfl
@[simp] theorem Block.next_keyBytes : b.next.2.keyBytes = b.keyBytes := rfl
@[simp] theorem Block.next_phase : b.next.2.phase = b.phase := rfl
end generation

section destruction
variable (b : Block)
@[simp] theorem Block.wipe_indexI : b.wipe.indexI = 0x00 := rfl
@[simp] theorem Block.wipe_indexJ : b.wipe.indexJ = 0x00 := rfl
@[simp] theorem Block.wipe_phase : b.wipe.phase = .empty := rfl
end destruction

end Sys2Proof.Machine
end

