-- ==== Sys2Proof/Laws/Block.lean ====
section
/-! SUPPORT. What the shared operations on the block can do, said once: `NEXT()`, runs of it, and the steps of construction. -/

namespace Sys2Proof.Machine

/-- Two 8-bit indices are the same location exactly when they are the same index. -/
theorem index_eq_iff (a b : Byte) : a.toNat = b.toNat ↔ a = b := BitVec.toNat_inj

theorem index_lt (a : Byte) : a.toNat < Config.nPerm := a.isLt

@[simp] theorem Block.next_perm (b : Block) :
    b.next.2.perm = b.perm.swap b.next.2.indexI.toNat b.next.2.indexJ.toNat := rfl

/-- The array after `NEXT()`: the entries at the new `i` and the new `j` exchanged, every other as before. -/
theorem Block.next_entry (b : Block) (a : Byte) :
    b.next.2.entry a =
      if a = b.next.2.indexJ then b.entry b.next.2.indexI
      else if a = b.next.2.indexI then b.entry b.next.2.indexJ else b.entry a := by
  simp only [Block.entry, Block.next_perm, Memory.read_swap, index_eq_iff]

/-- The byte `NEXT()` returns, read from the array it leaves. -/
theorem Block.next_byte (b : Block) :
    b.next.1 = b.next.2.entry (b.next.2.entry b.next.2.indexI + b.next.2.entry b.next.2.indexJ) := rfl

/-- `NEXT()` keeps the canonical form of the array. -/
theorem Block.next_wf {b : Block} (h : b.perm.wf) : b.next.2.perm.wf :=
  Memory.wf_swap h (index_lt _) (index_lt _)

@[simp] theorem Block.advance_zero (b : Block) : Block.advance 0 b = b := rfl

theorem Block.advance_succ (n : Nat) (b : Block) : Block.advance (n + 1) b = Block.advance n b.next.2 := rfl

theorem Block.advance_add (m n : Nat) (b : Block) :
    Block.advance (m + n) b = Block.advance n (Block.advance m b) := by
  induction m generalizing b with
  | zero => rw [Nat.zero_add, Block.advance_zero]
  | succ m ih => rw [Nat.succ_add, Block.advance_succ, Block.advance_succ, ih]

/-- A run of `NEXT()`s, one more at the end. -/
theorem Block.advance_succ_last (n : Nat) (b : Block) : Block.advance (n + 1) b = (Block.advance n b).next.2 :=
  Block.advance_add n 1 b

@[simp] theorem Block.advance_keyBytes (n : Nat) (b : Block) : (Block.advance n b).keyBytes = b.keyBytes := by
  induction n generalizing b with
  | zero => rfl
  | succ n ih => rw [Block.advance_succ, ih, Block.next_keyBytes]

@[simp] theorem Block.advance_phase (n : Nat) (b : Block) : (Block.advance n b).phase = b.phase := by
  induction n generalizing b with
  | zero => rfl
  | succ n ih => rw [Block.advance_succ, ih, Block.next_phase]

theorem Block.advance_wf {b : Block} (h : b.perm.wf) (n : Nat) : (Block.advance n b).perm.wf := by
  induction n generalizing b with
  | zero => exact h
  | succ n ih => exact ih (Block.next_wf h)

/-- What `n` steps of `NEXT()` do to the array and the indices is a function of the array and the indices alone. -/
theorem Block.advance_congr (n : Nat) {b c : Block} (hp : b.perm = c.perm) (hi : b.indexI = c.indexI)
    (hj : b.indexJ = c.indexJ) :
    (Block.advance n b).perm = (Block.advance n c).perm ∧ (Block.advance n b).indexI = (Block.advance n c).indexI ∧
      (Block.advance n b).indexJ = (Block.advance n c).indexJ := by
  induction n generalizing b c with
  | zero => exact ⟨hp, hi, hj⟩
  | succ n ih =>
    have hI : b.next.2.indexI = c.next.2.indexI := by rw [Block.next_indexI, Block.next_indexI, hi]
    have hJ : b.next.2.indexJ = c.next.2.indexJ := by simp only [Block.next_indexJ, Block.entry, hp, hi, hj]
    exact ih (by rw [Block.next_perm, Block.next_perm, hp, hI, hJ]) hI hJ

/-- The identity fill, entry by entry. -/
theorem Block.identity_entry (b : Block) (a : Byte) : b.identity.entry a = a := by
  rw [Block.entry, Block.identity_perm, Memory.read_fill _ _ (index_lt a), BitVec.ofNat_toNat, BitVec.setWidth_eq]

theorem Block.identity_wf (b : Block) : b.identity.perm.wf := by
  rw [Block.identity_perm]
  exact Memory.wf_fill _

theorem scheduleStep_wf {b : Block} {p : Memory × Byte} (h : p.1.wf) {n : Nat} (hn : n < Config.nPerm) :
    (scheduleStep b p n).1.wf :=
  Memory.wf_swap h hn (index_lt _)

theorem schedule_foldl_wf (b : Block) (l : List Nat) (p : Memory × Byte) (h : p.1.wf)
    (hl : ∀ n ∈ l, n < Config.nPerm) : (l.foldl (scheduleStep b) p).1.wf := by
  induction l generalizing p with
  | nil => exact h
  | cons n l ih => exact ih _ (scheduleStep_wf h (hl n (by simp))) fun k hk => hl k (by simp [hk])

theorem Block.schedule_perm (b : Block) :
    b.schedule.perm = ((List.range Config.nPerm).foldl (scheduleStep b) (b.perm, 0x00)).1 := by
  simp only [Block.schedule]

theorem Block.schedule_wf {b : Block} (h : b.perm.wf) : b.schedule.perm.wf := by
  rw [Block.schedule_perm]
  exact schedule_foldl_wf b _ _ h fun n hn => List.mem_range.mp hn

/-- The block as it stands before priming: key split, identity fill, scheduling, index reset. -/
theorem Block.loadkey_eq (b : Block) (key : KeyWord) :
    b.loadkey key =
      { Block.advance Config.primeCount (b.splitKey key).identity.schedule.resetIndices with phase := .ready } := by
  simp only [Block.loadkey, Block.prime]

theorem Block.loadkey_perm (b : Block) (key : KeyWord) :
    (b.loadkey key).perm =
      (Block.advance Config.primeCount (b.splitKey key).identity.schedule.resetIndices).perm := by
  rw [Block.loadkey_eq]

theorem Block.loadkey_indexI (b : Block) (key : KeyWord) :
    (b.loadkey key).indexI =
      (Block.advance Config.primeCount (b.splitKey key).identity.schedule.resetIndices).indexI := by
  rw [Block.loadkey_eq]

theorem Block.loadkey_indexJ (b : Block) (key : KeyWord) :
    (b.loadkey key).indexJ =
      (Block.advance Config.primeCount (b.splitKey key).identity.schedule.resetIndices).indexJ := by
  rw [Block.loadkey_eq]

@[simp] theorem Block.loadkey_keyBytes (b : Block) (key : KeyWord) : (b.loadkey key).keyBytes = keySplit key := by
  rw [Block.loadkey_eq, Block.advance_keyBytes, Block.resetIndices_keyBytes, Block.schedule_keyBytes,
    Block.identity_keyBytes, Block.splitKey_keyBytes]

/-- `LOADKEY` leaves the array in canonical form, whatever it held. -/
theorem Block.loadkey_wf (b : Block) (key : KeyWord) : (b.loadkey key).perm.wf := by
  rw [Block.loadkey_perm]
  apply Block.advance_wf
  rw [Block.resetIndices_perm]
  exact Block.schedule_wf (Block.identity_wf _)

@[simp] theorem Block.wipe_perm (b : Block) : b.wipe.perm = [] := by
  simp only [Block.wipe, Memory.fill_unlisted]

/-- `WIPE` leaves the array in canonical form, whatever it held. -/
theorem Block.wipe_wf (b : Block) : b.wipe.perm.wf := by rw [Block.wipe_perm]; exact Memory.wf_nil

end Sys2Proof.Machine
end

