-- ==== Sys2Proof/Laws/Decode.lean ====
section
/-! SUPPORT. The fields of a command word: what each reads of a word put together from its fields, and what the decoder gives
for each value of `OP`. -/

namespace Sys2Proof

/-- A bit of a word put together from `OP` and `ARG`. -/
theorem getLsbD_fields (op : BitVec 2) (arg : KeyWord) (i : Nat) :
    BitVec.getLsbD (w := 66) (op ++ arg) i = if i < 64 then arg.getLsbD i else op.getLsbD (i - 64) :=
  (BitVec.getLsbD_append (x := op) (y := arg)).trans (by simp)

theorem opField_fields (op : BitVec 2) (arg : KeyWord) : opField (op ++ arg) = op := by
  apply BitVec.eq_of_getLsbD_eq
  intro i hi
  rw [opField, BitVec.getLsbD_extractLsb', getLsbD_fields]
  simp [hi]

theorem argField_fields (op : BitVec 2) (arg : KeyWord) : argField (op ++ arg) = arg := by
  apply BitVec.eq_of_getLsbD_eq
  intro i hi
  rw [argField, BitVec.getLsbD_extractLsb', getLsbD_fields]
  simp [hi]

/-- A word is its `OP` above its `ARG`. -/
theorem fields_eq (w : CommandWord) : opField w ++ argField w = w := by
  apply BitVec.eq_of_getLsbD_eq
  intro i hi
  rw [getLsbD_fields, opField, argField, BitVec.getLsbD_extractLsb', BitVec.getLsbD_extractLsb']
  split
  · simp [*]
  · next h =>
    have : i - 64 < 2 := by omega
    simp only [this, decide_true, Bool.true_and]
    congr 1
    omega

/-- The data byte is the low byte of `ARG`. -/
theorem dinField_eq (w : CommandWord) : dinField w = (argField w).extractLsb' 0 8 := by
  apply BitVec.eq_of_getLsbD_eq
  intro i hi
  simp [dinField, argField]

theorem opField_cases (w : CommandWord) :
    opField w = 0b00#2 ∨ opField w = 0b01#2 ∨ opField w = 0b10#2 ∨ opField w = 0b11#2 := by
  generalize opField w = x
  revert x
  decide

theorem decode_of_op00 {w : CommandWord} (h : opField w = 0b00#2) : decode w = .nop := by simp [decode, h]

theorem decode_of_op01 {w : CommandWord} (h : opField w = 0b01#2) : decode w = .loadkey (argField w) := by
  simp [decode, h]

theorem decode_of_op10 {w : CommandWord} (h : opField w = 0b10#2) : decode w = .xlate (dinField w) := by
  simp [decode, h]

theorem decode_of_op11 {w : CommandWord} (h : opField w = 0b11#2) : decode w = .wipe := by simp [decode, h]

end Sys2Proof
end

