-- ==== Sys2Proof/Laws/Exec.lean ====
section
/-! SUPPORT. Everything a command and a step can do, said once; later proofs cite these and unfold neither `exec` nor `step`. -/

namespace Sys2Proof.Machine

theorem exec_nop (s : State) : exec .nop s = .next (s.respond false 0x00) := rfl

theorem exec_loadkey (key : KeyWord) (s : State) :
    exec (.loadkey key) s = .next (State.respond { s with block := s.block.loadkey key } false 0x00) := by
  simp only [exec, execLoadkey]

/-- `LOADKEY` with the block it leaves named: with a variable for that block, no later step of a proof unfolds the construction. -/
theorem exec_loadkey_to {key : KeyWord} {s : State} {b : Block} (h : b = s.block.loadkey key) :
    exec (.loadkey key) s = .next (State.respond { s with block := b } false 0x00) := by
  rw [exec_loadkey, h]

theorem exec_xlate (din : Byte) (s : State) :
    exec (.xlate din) s =
      match s.block.phase with
      | .ready => .next (State.respond { s with block := s.block.next.2 } false (din ^^^ s.block.next.1))
      | .empty => .next s.raiseNotKeyed := rfl

theorem exec_xlate_ready (din : Byte) {s : State} (h : s.block.phase = .ready) :
    exec (.xlate din) s =
      .next (State.respond { s with block := s.block.next.2 } false (din ^^^ s.block.next.1)) := by
  rw [exec_xlate, h]

theorem exec_xlate_empty (din : Byte) {s : State} (h : s.block.phase = .empty) :
    exec (.xlate din) s = .next s.raiseNotKeyed := by
  rw [exec_xlate, h]

theorem exec_wipe (s : State) :
    exec .wipe s = .next (State.respond { s with block := s.block.wipe } false 0x00) := by
  simp only [exec, execWipe]

/-- `WIPE` with the block it leaves named. -/
theorem exec_wipe_to {s : State} {b : Block} (h : b = s.block.wipe) :
    exec .wipe s = .next (State.respond { s with block := b } false 0x00) := by
  rw [exec_wipe, h]

/-- Everything a command can do: if `exec` answers `next t`, one of these five cases holds. -/
theorem exec_cases {i : Instr} {s t : State} (h : exec i s = .next t) :
    (i = .nop ∧ t = s.respond false 0x00) ∨
    (∃ key b, i = .loadkey key ∧ b = s.block.loadkey key ∧ t = State.respond { s with block := b } false 0x00) ∨
    (∃ din, i = .xlate din ∧ s.block.phase = .ready ∧
      t = State.respond { s with block := s.block.next.2 } false (din ^^^ s.block.next.1)) ∨
    (∃ din, i = .xlate din ∧ s.block.phase = .empty ∧ t = s.raiseNotKeyed) ∨
    (∃ b, i = .wipe ∧ b = s.block.wipe ∧ t = State.respond { s with block := b } false 0x00) := by
  cases i with
  | nop =>
    rw [exec_nop] at h
    exact .inl ⟨rfl, (Host.Outcome.next.inj h).symm⟩
  | loadkey key =>
    obtain ⟨b, hb⟩ : ∃ b, b = s.block.loadkey key := ⟨_, rfl⟩
    rw [exec_loadkey_to hb] at h
    exact .inr (.inl ⟨key, b, rfl, hb, (Host.Outcome.next.inj h).symm⟩)
  | xlate din =>
    cases hp : s.block.phase with
    | ready =>
      rw [exec_xlate_ready din hp] at h
      exact .inr (.inr (.inl ⟨din, rfl, rfl, (Host.Outcome.next.inj h).symm⟩))
    | empty =>
      rw [exec_xlate_empty din hp] at h
      exact .inr (.inr (.inr (.inl ⟨din, rfl, rfl, (Host.Outcome.next.inj h).symm⟩)))
  | wipe =>
    obtain ⟨b, hb⟩ : ∃ b, b = s.block.wipe := ⟨_, rfl⟩
    rw [exec_wipe_to hb] at h
    exact .inr (.inr (.inr (.inr ⟨b, rfl, hb, (Host.Outcome.next.inj h).symm⟩)))

theorem step_accepted {s : State} {w : CommandWord} (h : s.acceptedWord = some w) :
    step s = exec (decode w) s.popEdge := by
  rw [step, h]

theorem step_passed {s : State} (h : s.acceptedWord = none) : step s = .next s.passEdge := by
  rw [step, h]

theorem acceptedWord_nil {s : State} (h : s.edges = []) : s.acceptedWord = none := by
  rw [State.acceptedWord, h]

/-- When a command word is accepted: `cmd_valid` is 1, `rst` is 0 and no response is pending. -/
theorem acceptedWord_some_iff {s : State} {w : CommandWord} :
    s.acceptedWord = some w ↔
      ∃ e es, s.edges = e :: es ∧ e.rst = false ∧ e.cmdValid = true ∧ s.response = none ∧ e.cmdWord = w := by
  cases he : s.edges with
  | nil => simp [acceptedWord_nil he]
  | cons e es =>
    simp only [State.acceptedWord, he, State.cmdReady, State.rspValid]
    cases hr : e.rst <;> cases hv : e.cmdValid <;> simp [hr, hv]

/-- Everything a clock edge at which no command is accepted can do. -/
theorem passEdge_cases (s : State) :
    (s.edges = [] ∧ s.passEdge = s) ∨
    (∃ e es, s.edges = e :: es ∧ e.rst = true ∧ s.passEdge = s.popEdge.applyReset) ∨
    (∃ e es, s.edges = e :: es ∧ e.rst = false ∧ e.rspReady = true ∧ s.passEdge = s.popEdge.deliver) ∨
    (∃ e es, s.edges = e :: es ∧ e.rst = false ∧ e.rspReady = false ∧ s.passEdge = s.popEdge) := by
  cases he : s.edges with
  | nil => exact .inl ⟨rfl, by rw [State.passEdge, he]⟩
  | cons e es =>
    cases hr : e.rst with
    | true => exact .inr (.inl ⟨e, es, rfl, hr, by simp [State.passEdge, he, hr]⟩)
    | false =>
      cases hq : e.rspReady with
      | true => exact .inr (.inr (.inl ⟨e, es, rfl, hr, hq, by simp [State.passEdge, he, hr, hq]⟩))
      | false => exact .inr (.inr (.inr ⟨e, es, rfl, hr, hq, by simp [State.passEdge, he, hr, hq]⟩))

/-- Everything a step can do: carry out an accepted command, or pass a clock edge. -/
theorem step_cases {s t : State} (h : step s = .next t) :
    (∃ w, s.acceptedWord = some w ∧ exec (decode w) s.popEdge = .next t) ∨
    (s.acceptedWord = none ∧ t = s.passEdge) := by
  cases ha : s.acceptedWord with
  | none =>
    rw [step_passed ha] at h
    exact .inr ⟨rfl, (Host.Outcome.next.inj h).symm⟩
  | some w =>
    rw [step_accepted ha] at h
    exact .inl ⟨w, rfl, h⟩

end Sys2Proof.Machine
end

