-- ==== Sys2Proof/Laws/Packed.lean ====
section
/-! SUPPORT. The array packed into one number, entry `a` in bits 8a+7..8a: the same machine in a form Lean's kernel evaluates in
a second, with the proof that it computes what the model does. It lets a test evaluate `LOADKEY` (256 swaps and 1024 steps) on a
given key; nothing of the model depends on it. -/

namespace Sys2Proof.Machine

/-- The entry at `a`. -/
def Packed.get (s a : Nat) : Nat := (s >>> (8 * a)) % 256

/-- The two entries exchanged. -/
def Packed.swap (s a b : Nat) : Nat :=
  s ^^^ ((Packed.get s a ^^^ Packed.get s b) <<< (8 * a) ^^^ (Packed.get s a ^^^ Packed.get s b) <<< (8 * b))

theorem Packed.get_lt (s a : Nat) : Packed.get s a < 256 := Nat.mod_lt _ (by decide)

theorem Packed.get_xor (s t a : Nat) : Packed.get (s ^^^ t) a = Packed.get s a ^^^ Packed.get t a := by
  simp only [Packed.get, Nat.shiftRight_xor_distrib]
  exact Nat.xor_mod_two_pow (n := 8)

theorem Packed.get_shiftLeft {d : Nat} (hd : d < 256) (a x : Nat) :
    Packed.get (d <<< (8 * a)) x = if x = a then d else 0 := by
  apply Nat.eq_of_testBit_eq
  intro k
  rw [Packed.get, show (256 : Nat) = 2 ^ 8 from rfl, Nat.testBit_mod_two_pow, Nat.testBit_shiftRight,
    Nat.testBit_shiftLeft]
  by_cases hk : k < 8
  · by_cases hx : x = a
    · subst hx
      simp [hk]
    · rw [if_neg hx, Nat.zero_testBit]
      by_cases hge : 8 * a ≤ 8 * x + k
      · have : d.testBit (8 * x + k - 8 * a) = false :=
          Nat.testBit_lt_two_pow (Nat.lt_of_lt_of_le hd (show 2 ^ 8 ≤ _ from Nat.pow_le_pow_right (by decide) (by omega)))
        simp [this]
      · simp [hge]
  · have : (if x = a then d else 0).testBit k = false := by
      apply Nat.testBit_lt_two_pow
      have : 2 ^ 8 ≤ 2 ^ k := Nat.pow_le_pow_right (by decide) (by omega)
      split <;> omega
    simp [hk, this]

theorem Packed.xor_lt (s a b : Nat) : Packed.get s a ^^^ Packed.get s b < 256 :=
  Nat.xor_lt_two_pow (n := 8) (Packed.get_lt s a) (Packed.get_lt s b)

theorem Packed.get_swap (s a b x : Nat) :
    Packed.get (Packed.swap s a b) x =
      if x = b then Packed.get s a else if x = a then Packed.get s b else Packed.get s x := by
  rw [Packed.swap, Packed.get_xor, Packed.get_xor, Packed.get_shiftLeft (Packed.xor_lt s a b),
    Packed.get_shiftLeft (Packed.xor_lt s a b)]
  by_cases hb : x = b
  · subst hb
    by_cases ha : x = a
    · subst ha; simp
    · simp [ha, Nat.xor_comm (Packed.get s a)]
  · by_cases ha : x = a
    · subst ha; simp [hb]
    · simp [ha, hb]

/-- The number holds the array. -/
def Packed.Holds (s : Nat) (m : Memory) : Prop := ∀ a, a < Config.nPerm → (m.read a).toNat = Packed.get s a

theorem Packed.holds_swap {s : Nat} {m : Memory} (h : Packed.Holds s m) {a b : Nat} (ha : a < Config.nPerm)
    (hb : b < Config.nPerm) : Packed.Holds (Packed.swap s a b) (m.swap a b) := by
  intro x hx
  rw [Memory.read_swap, Packed.get_swap]
  split
  · exact h a ha
  · split
    · exact h b hb
    · exact h x hx

/-- The number's value is known before the continuation is entered: what keeps the kernel from piling up suspended work. -/
def Packed.force {α : Type} (n : Nat) (k : Nat → α) : α :=
  match n with
  | 0 => k 0
  | m + 1 => k (m + 1)

@[simp] theorem Packed.force_eq {α : Type} (n : Nat) (k : Nat → α) : Packed.force n k = k n := by
  cases n <;> rfl

/-- `n` steps of `NEXT()` from array `s` and indices `i` and `j`. -/
def Packed.advance {α : Type} : (n s i j : Nat) → (Nat → Nat → Nat → α) → α
  | 0, s, i, j, k => k s i j
  | n + 1, s, i, j, k =>
    Packed.force ((i + 1) % 256) fun i => Packed.force ((j + Packed.get s i) % 256) fun j =>
      Packed.force (Packed.swap s i j) fun s => Packed.advance n s i j k

/-- The byte of the last `NEXT()`, selected from the array it left. -/
def Packed.selected (s i j : Nat) : Nat := Packed.get s ((Packed.get s i + Packed.get s j) % 256)

/-- `n` iterations of `SCHEDULE()` from iteration `c` on. -/
def Packed.schedule {α : Type} (key : Nat) : (n c a s : Nat) → (Nat → α) → α
  | 0, _, _, s, k => k s
  | n + 1, c, a, s, k =>
    Packed.force ((a + Packed.get s c + Packed.get key (c % 8)) % 256) fun a =>
      Packed.force (Packed.swap s c a) fun s => Packed.schedule key n (c + 1) a s k

/-- The identity array. -/
def Packed.identity : Nat → Nat
  | 0 => 0
  | n + 1 => Packed.identity n + n <<< (8 * n)

/-- `n` steps of `NEXT()` after `LOADKEY key`. -/
def Packed.keyed {α : Type} (key n : Nat) (k : Nat → Nat → Nat → α) : α :=
  Packed.force (Packed.identity 256) fun s =>
    Packed.schedule key 256 0 0 s fun s => Packed.advance (1024 + n) s 0 0 k

/-- What the packed run computes is what the block holds. -/
structure Packed.Rep (s i j : Nat) (b : Block) : Prop where
  array : Packed.Holds s b.perm
  indexI : b.indexI.toNat = i
  indexJ : b.indexJ.toNat = j

theorem Packed.entry_eq {s : Nat} {b : Block} (h : Packed.Holds s b.perm) (a : Byte) :
    (b.entry a).toNat = Packed.get s a.toNat := h _ (index_lt a)

theorem Packed.rep_next {s i j : Nat} {b : Block} (h : Packed.Rep s i j b) :
    Packed.Rep (Packed.swap s ((i + 1) % 256) ((j + Packed.get s ((i + 1) % 256)) % 256)) ((i + 1) % 256)
      ((j + Packed.get s ((i + 1) % 256)) % 256) b.next.2 := by
  have hi : b.next.2.indexI.toNat = (i + 1) % 256 := by
    rw [Block.next_indexI, BitVec.toNat_add, h.indexI]; rfl
  have hj : b.next.2.indexJ.toNat = (j + Packed.get s ((i + 1) % 256)) % 256 := by
    rw [Block.next_indexJ, BitVec.toNat_add, Packed.entry_eq h.array, h.indexJ, ← Block.next_indexI, hi]
  refine ⟨?_, hi, hj⟩
  rw [Block.next_perm, hi, hj]
  exact Packed.holds_swap h.array (Nat.mod_lt _ (by decide)) (Nat.mod_lt _ (by decide))

theorem Packed.selected_eq {s i j : Nat} {b : Block} (h : Packed.Rep s i j b.next.2) :
    b.next.1.toNat = Packed.selected s i j := by
  rw [Block.next_byte, Packed.entry_eq h.array, BitVec.toNat_add, Packed.entry_eq h.array, Packed.entry_eq h.array,
    h.indexI, h.indexJ, Packed.selected]

theorem Packed.advance_spec {α : Type} (n : Nat) {s i j : Nat} {b : Block} (h : Packed.Rep s i j b)
    (k : Nat → Nat → Nat → α) :
    ∃ s' i' j', Packed.Rep s' i' j' (Block.advance n b) ∧ Packed.advance n s i j k = k s' i' j' := by
  induction n generalizing s i j b with
  | zero => exact ⟨s, i, j, h, rfl⟩
  | succ n ih =>
    obtain ⟨s', i', j', hr, he⟩ := ih (Packed.rep_next h)
    exact ⟨s', i', j', hr, by simpa [Packed.advance] using he⟩

theorem Packed.keySlice_eq (key : KeyWord) (k : Nat) : (keySlice key k).toNat = Packed.get key.toNat k := by
  simp only [keySlice, Packed.get, BitVec.toNat_setWidth, BitVec.toNat_and, BitVec.toNat_ushiftRight]
  rw [show (0xFF#64).toNat = 2 ^ 8 - 1 from rfl, Nat.and_two_pow_sub_one_eq_mod, Nat.mod_mod]

theorem Packed.keyByte_eq {b : Block} {key : KeyWord} (h : b.keyBytes = keySplit key) (n : Nat) :
    (b.keyByte n).toNat = Packed.get key.toNat (n % 8) := by
  simp only [Block.keyByte, h, keySplit, Vector.getElem_ofFn, Packed.keySlice_eq, Config.keyLen]

theorem Packed.schedule_spec {α : Type} {b : Block} {key : KeyWord} (hk : b.keyBytes = keySplit key) (k : Nat → α)
    (n c a s : Nat) (hc : c + n ≤ 256) {m : Memory} {v : Byte} (hm : Packed.Holds s m) (ha : v.toNat = a) :
    ∃ s', Packed.Holds s' ((List.range' c n).foldl (scheduleStep b) (m, v)).1 ∧
      Packed.schedule key.toNat n c a s k = k s' := by
  induction n generalizing c a s m v with
  | zero => exact ⟨s, hm, rfl⟩
  | succ n ih =>
    have hc' : c < Config.nPerm := by simp only [Config.nPerm]; omega
    have hv : (v + m.read c + b.keyByte c).toNat =
        (a + Packed.get s c + Packed.get key.toNat (c % 8)) % 256 := by
      rw [BitVec.toNat_add, BitVec.toNat_add, Packed.keyByte_eq hk, hm c hc', ha]
      omega
    have hm' : Packed.Holds (Packed.swap s c (v + m.read c + b.keyByte c).toNat)
        (m.swap c (v + m.read c + b.keyByte c).toNat) := Packed.holds_swap hm hc' (index_lt _)
    obtain ⟨s', hs, he⟩ := ih (c + 1) _ _ (by omega) hm' hv
    refine ⟨s', ?_, ?_⟩
    · rw [List.range'_succ, List.foldl_cons]
      exact hs
    · simpa [Packed.schedule, hv] using he

theorem Packed.get_identity (n a : Nat) (hn : n ≤ 256) :
    Packed.get (Packed.identity n) a = (if a < n then a else 0) ∧ Packed.identity n < 2 ^ (8 * n) := by
  induction n with
  | zero => simp [Packed.identity, Packed.get]
  | succ n ih =>
    obtain ⟨ih, hlt⟩ := ih (by omega)
    have hsum : Packed.identity (n + 1) = n <<< (8 * n) ^^^ Packed.identity n := by
      rw [Packed.identity, Nat.add_comm, Nat.shiftLeft_add_eq_or_of_lt hlt]
      apply Nat.eq_of_testBit_eq
      intro k
      rw [Nat.testBit_or, Nat.testBit_xor, Nat.testBit_shiftLeft]
      by_cases hk : 8 * n ≤ k
      · rw [Nat.testBit_lt_two_pow (Nat.lt_of_lt_of_le hlt (Nat.pow_le_pow_right (by decide) hk))]
        simp
      · simp [hk]
    constructor
    · rw [hsum, Packed.get_xor, Packed.get_shiftLeft (by omega), ih]
      by_cases ha : a = n
      · subst ha; simp
      · have : (a < n + 1) = (a < n) := by apply propext; omega
        simp [ha, this]
    · have h8 : 8 * (n + 1) = 8 * n + 8 := by omega
      have h1 : n <<< (8 * n) < 2 ^ (8 * (n + 1)) := by
        rw [Nat.shiftLeft_eq, h8, pow_add, Nat.mul_comm]
        exact Nat.mul_lt_mul_of_pos_left (by omega) (by positivity)
      have h2 : Packed.identity n < 2 ^ (8 * (n + 1)) :=
        Nat.lt_of_lt_of_le hlt (Nat.pow_le_pow_right (by decide) (by omega))
      rw [hsum]
      exact Nat.xor_lt_two_pow h1 h2

theorem Packed.holds_identity (b : Block) : Packed.Holds (Packed.identity 256) b.identity.perm := by
  intro a ha
  rw [(Packed.get_identity 256 a (Nat.le_refl _)).1, if_pos ha, Block.identity_perm, Memory.read_fill _ _ ha,
    BitVec.toNat_ofNat, Nat.mod_eq_of_lt ha]

/-- The packed run after `LOADKEY key` holds the block that the model's `LOADKEY key` and `n` steps of `NEXT()` leave. -/
theorem Packed.keyed_spec {α : Type} (b : Block) (key : KeyWord) (n : Nat) (k : Nat → Nat → Nat → α) :
    ∃ s i j, Packed.Rep s i j (Block.advance n (b.loadkey key)) ∧ Packed.keyed key.toNat n k = k s i j := by
  have hk : (b.splitKey key).identity.keyBytes = keySplit key := by
    rw [Block.identity_keyBytes, Block.splitKey_keyBytes]
  obtain ⟨s, hs, he⟩ := Packed.schedule_spec hk (fun s => Packed.advance (1024 + n) s 0 0 k) 256 0 0 _ (by omega)
    (Packed.holds_identity (b.splitKey key)) (v := 0x00) rfl
  have hr : Packed.Rep s 0 0 (b.splitKey key).identity.schedule.resetIndices := by
    refine ⟨?_, rfl, rfl⟩
    rw [Block.resetIndices_perm, Block.schedule_perm, List.range_eq_range']
    exact hs
  obtain ⟨s', i', j', hr', he'⟩ := Packed.advance_spec (1024 + n) hr k
  refine ⟨s', i', j', ?_, ?_⟩
  · rw [Block.advance_add] at hr'
    obtain ⟨h1, h2, h3⟩ := Block.advance_congr n (Block.loadkey_perm b key) (Block.loadkey_indexI b key) (Block.loadkey_indexJ b key)
    exact ⟨by rw [h1]; exact hr'.array, by rw [h2]; exact hr'.indexI, by rw [h3]; exact hr'.indexJ⟩
  · rw [Packed.keyed, Packed.force_eq]
    exact he.trans he'

/-- `n` steps of `NEXT()` on two packed arrays, every byte of one different from that of the other. -/
def Packed.differ : (n s i j s' i' j' : Nat) → Bool
  | 0, _, _, _, _, _, _ => true
  | n + 1, s, i, j, s', i', j' =>
    Packed.advance 1 s i j fun s i j => Packed.advance 1 s' i' j' fun s' i' j' =>
      !Nat.beq (Packed.selected s i j) (Packed.selected s' i' j') && Packed.differ n s i j s' i' j'

theorem Packed.differ_spec (n : Nat) {s i j s' i' j' : Nat} {b b' : Block} (h : Packed.Rep s i j b)
    (h' : Packed.Rep s' i' j' b') (hd : Packed.differ n s i j s' i' j' = true) :
    ∀ m < n, (Block.advance m b).next.1 ≠ (Block.advance m b').next.1 := by
  induction n generalizing s i j s' i' j' b b' with
  | zero => omega
  | succ n ih =>
    rw [Packed.differ] at hd
    obtain ⟨t, u, v, hr, he⟩ := Packed.advance_spec 1 h fun s i j => Packed.advance 1 s' i' j' fun s' i' j' =>
      !Nat.beq (Packed.selected s i j) (Packed.selected s' i' j') && Packed.differ n s i j s' i' j'
    rw [he] at hd
    obtain ⟨t', u', v', hr', he'⟩ := Packed.advance_spec 1 h' fun s' i' j' =>
      !Nat.beq (Packed.selected t u v) (Packed.selected s' i' j') && Packed.differ n t u v s' i' j'
    rw [he', Bool.and_eq_true] at hd
    intro m hm
    cases m with
    | zero =>
      intro heq
      have hne := hd.1
      rw [← Packed.selected_eq hr, ← Packed.selected_eq hr'] at hne
      simp only [Block.advance] at heq
      rw [heq] at hne
      simp at hne
    | succ m => exact ih hr hr' hd.2 m (by omega)

end Sys2Proof.Machine
end

