-- ==== Sys2Proof/Laws/PerInstr.lean ====
section
/-! SUPPORT. Statements about every command as syntax, one lemma per constructor. -/

namespace Sys2Proof.Laws

/-- The encoder puts the command's operation code of 30_encoding.md R53 into `OP`. -/
def OpcodeField.Statement (i : Instr) : Prop :=
  opField (encode i) =
    match i with
    | .nop => 0b00#2
    | .loadkey _ => 0b01#2
    | .xlate _ => 0b10#2
    | .wipe => 0b11#2

theorem OpcodeField.nop : OpcodeField.Statement .nop := opField_fields _ _

theorem OpcodeField.loadkey (key : KeyWord) : OpcodeField.Statement (.loadkey key) := opField_fields _ _

theorem OpcodeField.xlate (din : Byte) : OpcodeField.Statement (.xlate din) := opField_fields _ _

theorem OpcodeField.wipe : OpcodeField.Statement .wipe := opField_fields _ _

end Sys2Proof.Laws
end

