-- ==== Sys2Proof/Tests/Slice0.lean ====
section
/-! SUPPORT. Tests, with the place in spec/ their expected values come from, and for every statement with hypotheses a state and
operands that meet them (`witness_<statement>`). -/

namespace Sys2Proof.Tests

open Sys2Proof.Machine

/-! Decoding: words written out from the encoding patterns of 30_encoding.md section 2, most significant bit first. -/

theorem test_decode_nop :
    decode 0b000000000000000000000000000000000000000000000000000000000000000000#66 = .nop := by decide

/-- `01`, then the key 0x0102030405060708 of 95_test_vectors.md P1. -/
theorem test_decode_loadkey :
    decode 0b010000000100000010000000110000010000000101000001100000011100001000#66 =
      .loadkey 0x0102030405060708#64 := by decide

/-- `10`, 56 ignored bits, then 0x41 (95_test_vectors.md P1). -/
theorem test_decode_xlate :
    decode 0b100000000000000000000000000000000000000000000000000000000001000001#66 = .xlate 0x41#8 := by decide

/-- The same with every ignored bit set (30_encoding.md R55). -/
theorem test_decode_xlate_ignored :
    decode 0b101111111111111111111111111111111111111111111111111111111101000001#66 = .xlate 0x41#8 := by decide

theorem test_decode_wipe :
    decode 0b110000000000000000000000000000000000000000000000000000000000000000#66 = .wipe := by decide

theorem test_encode_loadkey : encode (.loadkey 0x0102030405060708#64) = 0x10102030405060708#66 := by decide

theorem test_encode_xlate : encode (.xlate 0x41#8) = 0x20000000000000041#66 := by decide

/-- A number of more than 66 bits is rejected by name; the widest command word is not (30_encoding.md R52). -/
theorem test_decodeNumber_tooWide :
    decodeNumber (2 ^ 66) = .error .tooWide ∧ decodeNumber (2 ^ 66 - 1) = .ok .wipe := ⟨rfl, rfl⟩

theorem test_decodeTableWord : decodeTableWord 72 0x20000000000000041 = some (.xlate 0x41#8) := by decide

/-- The text forms of 30_encoding.md R58. -/
theorem test_text :
    (Instr.loadkey 0x0102030405060708#64).text = "LOADKEY 0x0102030405060708" ∧
      (Instr.xlate 0x41#8).text = "XLATE 0x41" ∧ Instr.wipe.text = "WIPE" ∧ Instr.nop.text = "NOP" := by
  decide +kernel

/-! Well-formedness: every command is well formed; what each check of `canonicalWord` refuses (30_encoding.md R55). -/

theorem test_wellFormed : (Instr.loadkey 0#64).wellFormed = true ∧ (Instr.loadkey (-1)).wellFormed = true ∧
    (Instr.xlate 0xFF#8).wellFormed = true := by decide

theorem test_canonical_refuses_nop_arg : canonicalWord 0x00000000000000001#66 = false := by decide

theorem test_canonical_refuses_xlate_ignored : canonicalWord 0x2DEADBEEFCAFE0041#66 = false := by decide

theorem test_canonical_refuses_wipe_arg : canonicalWord 0x38000000000000000#66 = false := by decide

theorem test_canonical_accepts : canonicalWord 0x1FFFFFFFFFFFFFFFF#66 = true ∧
    canonicalWord 0x200000000000000FF#66 = true := by decide

/-! The key split (95_test_vectors.md V5). -/

theorem test_keySplit : (keySplit 0x0102030405060708#64).toList = [8, 7, 6, 5, 4, 3, 2, 1] ∧
    (keySplit 0x8000000000000000#64).toList = [0, 0, 0, 0, 0, 0, 0, 0x80] := by decide

theorem test_keyOfSource : keyOfSource #v[8, 7, 6, 5, 4, 3, 2, 1] = 0x0102030405060708#64 := by decide

/-! The step `NEXT()` on the hand-followable states of 95_test_vectors.md V7. -/

/-- `READY` with `S` the identity and the given indices. -/
def identityBlock (i j : Byte) : Block :=
  { Block.reset.identity with indexI := i, indexJ := j, phase := .ready }

/-- Row `ff, 07`: `i` wraps, `t = j`, the read is after the swap. -/
theorem test_next_wraps_i : (identityBlock 0xFF 0x07).next.1 = 0x00 ∧ (identityBlock 0xFF 0x07).next.2.indexI = 0x00 ∧
    (identityBlock 0xFF 0x07).next.2.entry 0x07 = 0x00 := by decide +kernel

/-- Row `fe, c8`: `j` and `t` wrap. -/
theorem test_next_wraps_j : (identityBlock 0xFE 0xC8).next.1 = 0xC6 ∧ (identityBlock 0xFE 0xC8).next.2.indexJ = 0xC7 ∧
    (identityBlock 0xFE 0xC8).next.2.entry 0xC7 = 0xFF := by decide +kernel

/-- Row `00, ff`: `t = i`, the read is after the swap. -/
theorem test_next_selector_is_i : (identityBlock 0x00 0xFF).next.1 = 0x00 := by decide +kernel

/-! `LOADKEY` (95_test_vectors.md V10, V11), evaluated in packed form. -/

theorem test_loadkey_zero (b : Block) : (b.loadkey 0x0#64).indexJ = 0x7E ∧ (b.loadkey 0x0#64).entry 0x00 = 0xFF ∧
    (b.loadkey 0x0#64).entry 0xFF = 0x90 := by
  obtain ⟨s, i, j, h, he⟩ := Packed.keyed_spec b 0x0#64 0 fun s _ j =>
    Nat.beq j 0x7E && Nat.beq (Packed.get s 0) 0xFF && Nat.beq (Packed.get s 255) 0x90
  have hv : Packed.keyed (0x0#64).toNat 0 (fun s _ j =>
      Nat.beq j 0x7E && Nat.beq (Packed.get s 0) 0xFF && Nat.beq (Packed.get s 255) 0x90) = true := by decide +kernel
  rw [he, Bool.and_eq_true, Bool.and_eq_true, Nat.beq_eq, Nat.beq_eq, Nat.beq_eq] at hv
  refine ⟨BitVec.eq_of_toNat_eq ?_, BitVec.eq_of_toNat_eq ?_, BitVec.eq_of_toNat_eq ?_⟩
  · exact h.indexJ.trans hv.1.1
  · exact (Packed.entry_eq h.array 0x00).trans hv.1.2
  · exact (Packed.entry_eq h.array 0xFF).trans hv.2

/-- The first exposed keystream byte of 0x0102030405060708 is 0x0a (95_test_vectors.md V8, V12). -/
theorem test_first_exposed_byte : exposedByte 0x0102030405060708#64 0 = 0x0A := by
  obtain ⟨s, i, j, h, he⟩ := Packed.keyed_spec Block.reset 0x0102030405060708#64 1 fun s i j =>
    Nat.beq (Packed.selected s i j) 0x0A
  have hv : Packed.keyed (0x0102030405060708#64).toNat 1 (fun s i j => Nat.beq (Packed.selected s i j) 0x0A) = true := by
    decide +kernel
  rw [he, Nat.beq_eq] at hv
  exact BitVec.eq_of_toNat_eq ((Packed.selected_eq h).trans hv)

/-- Keys 0 and 1, which differ in one bit, differ in all of their first 256 exposed keystream bytes (44_properties.md R116,
95_test_vectors.md V16). -/
theorem test_avalanche_keys_0_and_1 : ∀ n < 256, exposedByte 0x0#64 n ≠ exposedByte 0x1#64 n := by
  obtain ⟨s, i, j, h, he⟩ := Packed.keyed_spec Block.reset 0x0#64 0 fun s i j =>
    Packed.keyed (0x1#64).toNat 0 (Packed.differ 256 s i j)
  obtain ⟨s', i', j', h', he'⟩ := Packed.keyed_spec Block.reset 0x1#64 0 (Packed.differ 256 s i j)
  have hv : Packed.keyed (0x0#64).toNat 0 (fun s i j => Packed.keyed (0x1#64).toNat 0 (Packed.differ 256 s i j)) = true := by
    decide +kernel
  rw [he, he'] at hv
  exact Packed.differ_spec 256 h h' hv

/-! One step each of `XLATE`, `NOP` and `WIPE` on small states. -/

/-- `READY` with `S` the identity, `i` = `j` = 0, and the given clock edges to come. -/
def readyState (es : List Edge) : State := { State.reset with block := identityBlock 0x00 0x00, edges := es }

/-- After reset, with the given clock edges to come. -/
def emptyState (es : List Edge) : State := { State.reset with edges := es }

/-- A clock edge that presents a command. -/
def offer (w : CommandWord) : Edge := { rst := false, cmdValid := true, cmdWord := w, rspReady := false }

/-- A clock edge that takes a response. -/
def take : Edge := { rst := false, cmdValid := false, cmdWord := 0, rspReady := true }

/-- A clock edge with reset asserted, a command presented and the host ready for a response. -/
def resetEdge : Edge := { rst := true, cmdValid := true, cmdWord := 0x10000000000000000#66, rspReady := true }

/-- What a step leaves pending, if it answers a next state. -/
def responseAfter (s : State) : Option Response :=
  match step s with
  | .next t => t.response
  | .fault _ => none
  | .refused _ => none

/-- From the identity with `i` = `j` = 0 the first byte is 0x02 (95_test_vectors.md V7): 0x41 XOR 0x02 = 0x43. -/
theorem test_xlate_ready : responseAfter (readyState [offer 0x20000000000000041#66]) = some ⟨false, 0x43⟩ := by
  decide +kernel

/-- In `EMPTY`: `(1, 0x00)` (95_test_vectors.md V15, P3). -/
theorem test_xlate_empty : responseAfter (emptyState [offer 0x20000000000000041#66]) = some ⟨true, 0x00⟩ := by
  decide +kernel

theorem test_nop : responseAfter (readyState [offer 0x00000000000000000#66]) = some ⟨false, 0x00⟩ := by decide +kernel

/-- 95_test_vectors.md V17. -/
theorem test_wipe : (identityBlock 0x12 0x34).wipe = Block.reset := by decide +kernel

theorem test_wipe_answers : responseAfter (readyState [offer 0x30000000000000000#66]) = some ⟨false, 0x00⟩ := by
  decide +kernel

theorem test_loadkey_answers : responseAfter (emptyState [offer 0x10102030405060708#66]) = some ⟨false, 0x00⟩ := by
  decide +kernel

/-- In place, a position past the end of the buffer is stuck (93_implementation_defined.md U2, log 15), whatever came before. -/
theorem test_in_place_past_end :
    (translateInPlace 1 0 [] (readyState [])).isNone = true ∧ (translateInPlace 2 0 [0x41] (readyState [])).isNone = true := by
  decide +kernel

/-! What the first step after reset runs is the word that was placed (log 6). -/

theorem test_withFetchWord :
    (State.reset.withFetchWord 72 0x20000000000000041).acceptedWord = some 0x20000000000000041#66 := by decide

/-! Witnesses -/

theorem identityBlock_entry (i j a : Byte) : (identityBlock i j).entry a = a := Block.identity_entry Block.reset a

theorem identityBlock_isPermutation (i j : Byte) : (identityBlock i j).IsPermutation := by
  have h : (identityBlock i j).entry = id := funext (identityBlock_entry i j)
  rw [Block.IsPermutation, h]
  exact Function.bijective_id

theorem readyState_inv (es : List Edge) : (readyState es).Inv where
  arrayCanonical := Block.identity_wf Block.reset
  readyIsPermutation := fun _ => identityBlock_isPermutation 0x00 0x00
  emptyIsReset := fun h => nomatch h
  errorIsNotKeyed := fun _ h => nomatch h

theorem emptyState_inv (es : List Edge) : (emptyState es).Inv where
  arrayCanonical := Memory.wf_nil
  readyIsPermutation := fun h => nomatch h
  emptyIsReset := fun _ => rfl
  errorIsNotKeyed := fun _ h => nomatch h

/-- The step at an edge that presents `w`. -/
theorem step_offered {s t : State} {w : CommandWord} {i : Instr} (ha : s.acceptedWord = some w) (hd : decode w = i)
    (he : exec i s.popEdge = .next t) : step s = .next t := by
  rw [step_accepted ha, hd, he]

theorem witness_DecodeFollowsOpcode :
    opField 0x0FFFFFFFFFFFFFFFF#66 = 0b00#2 ∧ opField 0x10000000000000000#66 = 0b01#2 ∧
      opField 0x2FFFFFFFFFFFFFFFF#66 = 0b10#2 ∧ opField 0x30000000000000000#66 = 0b11#2 := by decide

theorem witness_DecodeIgnoresUnusedBits :
    (opField 0x2DEADBEEFCAFE0041#66 = opField 0x20000000000000041#66 ∧
      dinField 0x2DEADBEEFCAFE0041#66 = dinField 0x20000000000000041#66) ∧
    (opField 0x1FFFFFFFFFFFFFFFF#66 = 0b01#2 ∧ argField 0x1FFFFFFFFFFFFFFFF#66 = 0xFFFFFFFFFFFFFFFF#64) := by decide

theorem witness_DecodeEncodeRoundTrip : (Instr.loadkey 0xFFFFFFFFFFFFFFFF#64).wellFormed = true := by decide

theorem witness_StepRunsAcceptedCommand :
    (emptyState [offer 0x20000000000000041#66]).edges = [offer 0x20000000000000041#66] ∧
      (offer 0x20000000000000041#66).rst = false ∧ (offer 0x20000000000000041#66).cmdValid = true ∧
      (emptyState [offer 0x20000000000000041#66]).response = none ∧
      decode (offer 0x20000000000000041#66).cmdWord = .xlate 0x41#8 := by decide

theorem witness_PlacedWordRunsNext : (Instr.xlate 0x41#8).wellFormed = true := by decide

theorem witness_ResetEdgeGivesResetState :
    ({ readyState [resetEdge, take] with response := some ⟨false, 0x00⟩ } : State).edges = [resetEdge, take] ∧
      resetEdge.rst = true := ⟨rfl, rfl⟩

/-- A state in `READY` that meets the invariant, and the `XLATE` it runs. -/
theorem witness_StepKeepsInvariant :
    (readyState [offer 0x20000000000000041#66]).Inv ∧
      ∃ t, step (readyState [offer 0x20000000000000041#66]) = .next t ∧ t.block.phase = .ready :=
  ⟨readyState_inv _, _, step_offered (w := 0x20000000000000041#66) rfl (by decide) (exec_xlate_ready 0x41#8 rfl), rfl⟩

/-- A keyed block in `READY`, and the `NOP` it runs. -/
theorem witness_StepKeepsKeystreamPosition :
    ∃ s t : State, s.IsKeystreamPosition ∧ s.block.phase = .ready ∧ step s = .next t := by
  obtain ⟨b, hb⟩ : ∃ b, b = keyedBlock 0x0#64 := ⟨_, rfl⟩
  have hp : b.phase = .ready := by rw [hb, keyedBlock, Block.loadkey_phase]
  exact ⟨{ emptyState [offer 0#66] with block := b }, _, fun _ => ⟨0x0#64, 0, hb⟩, hp,
    step_offered (w := 0#66) rfl (by decide) (exec_nop _)⟩

/-- After `LOADKEY` the block is `READY`. -/
theorem witness_RunsKeepPermutation :
    ∃ t rs, runCommands [.loadkey 0x0#64] State.reset = some (t, rs) ∧ t.block.phase = .ready := by
  obtain ⟨b, hb⟩ : ∃ b, b = State.reset.block.loadkey 0x0#64 := ⟨_, rfl⟩
  refine ⟨State.deliver (State.respond { State.reset with block := b } false 0x00), [⟨false, 0x00⟩], ?_, ?_⟩
  · simp [runCommands, State.transact, exec_loadkey_to hb]
  · rw [State.deliver_block, State.respond_block, hb, Block.loadkey_phase]

theorem witness_NopDoesNothing : opField 0x0FFFFFFFFFFFFFFFF#66 = 0b00#2 := by decide

theorem witness_NopsChangeNothing :
    ∃ t, runCommands [.nop, .xlate 0x41#8, .nop] (emptyState []) =
      some (t, [⟨false, 0x00⟩, ⟨true, 0x00⟩, ⟨false, 0x00⟩]) := ⟨_, rfl⟩

theorem witness_KeySplitIsLittleEndian : 0 < Config.keyLen ∧ 7 < Config.keyLen := by decide

theorem witness_ScheduleIsOneForwardPass : (identityBlock 0x00 0x00).IsPermutation ∧ 0 < 256 ∧ 255 < 256 :=
  ⟨identityBlock_isPermutation _ _, by decide, by decide⟩

/-- The sum of the two entries the step leaves at `i` and `j`, as the byte with that number. -/
theorem witness_NextFollowsFourSteps :
    (0x01#8) ≠ (identityBlock 0xFF 0x07).next.2.indexI ∧ (0x01#8) ≠ (identityBlock 0xFF 0x07).next.2.indexJ ∧
      (0x07#8).toNat = (((identityBlock 0xFF 0x07).next.2.entry (identityBlock 0xFF 0x07).next.2.indexI).toNat +
        ((identityBlock 0xFF 0x07).next.2.entry (identityBlock 0xFF 0x07).next.2.indexJ).toNat) % 256 := by decide +kernel

/-- The rows of 95_test_vectors.md V7 that show the corner cases: `ff, 07` (wrap, and `t = j`), `00, 00` (`j = i`), `00, ff`
(`t = i`). -/
theorem witness_NextCornerCases :
    (identityBlock 0xFF 0x07).indexI = 0xFF ∧
    (identityBlock 0x00 0x00).next.2.indexJ = (identityBlock 0x00 0x00).next.2.indexI ∧
    (identityBlock 0x00 0xFF).entry (identityBlock 0x00 0xFF).next.2.indexI +
      (identityBlock 0x00 0xFF).entry (identityBlock 0x00 0xFF).next.2.indexJ = (identityBlock 0x00 0xFF).next.2.indexI ∧
    (identityBlock 0xFF 0x07).entry (identityBlock 0xFF 0x07).next.2.indexI +
      (identityBlock 0xFF 0x07).entry (identityBlock 0xFF 0x07).next.2.indexJ = (identityBlock 0xFF 0x07).next.2.indexJ := by
  decide +kernel

theorem witness_NextKeepsPermutation : (identityBlock 0xFE 0xC8).IsPermutation := identityBlock_isPermutation _ _

/-- For each clause on `din` too: 0x00, 0xFF, and `ks` itself, which is 0x02 here. -/
theorem witness_XlateReadyResult :
    (readyState []).block.phase = .ready ∧ (readyState []).block.next.1 = 0x02 ∧
      opField 0x2FFFFFFFFFFFFFFFF#66 = 0b10#2 := by decide +kernel

/-- `i` and `j` apart, and an address that is neither. -/
theorem witness_XlateFrame :
    (identityBlock 0x01 0x01).phase = .ready ∧ (0x02 : Byte) = (identityBlock 0x01 0x01).indexI + 1 ∧
      (0x03 : Byte) = (identityBlock 0x01 0x01).indexJ + (identityBlock 0x01 0x01).entry 0x02 ∧
      (255 : Nat) ≠ (0x02 : Byte).toNat ∧ (255 : Nat) ≠ (0x03 : Byte).toNat := by decide +kernel

theorem witness_XlateEmptyRaisesNotKeyed : State.reset.block.phase = .empty := rfl

/-- An `XLATE` in `EMPTY`, whose response has `ERR`, and a `NOP` there, whose response has not. -/
theorem witness_ErrorOnlyFromXlateInEmpty :
    (∃ t, exec (.xlate 0x41#8) State.reset = .next t ∧ t.response = some ⟨true, 0x00⟩) ∧
      ∃ t, exec .nop State.reset = .next t ∧ t.response = some ⟨false, 0x00⟩ := ⟨⟨_, rfl, rfl⟩, ⟨_, rfl, rfl⟩⟩

theorem witness_NotKeyedIsNotSticky :
    State.reset.block.phase = .empty ∧
      ∃ t, runCommands [.nop, .wipe] State.reset = some (t, [⟨false, 0x00⟩, ⟨false, 0x00⟩]) := ⟨rfl, _, rfl⟩

/-- A step that sets the record. -/
theorem witness_NotKeyedRecordIsExact :
    ∃ t, step (emptyState [offer 0x20000000000000041#66]) = .next t ∧ t.notKeyedSeen = true :=
  ⟨_, step_offered (w := 0x20000000000000041#66) rfl (by decide) (exec_xlate_empty 0x41#8 rfl), rfl⟩

/-- One state for each clause: nothing recorded after the step, a `NotKeyed` raised by it, one recorded before it. -/
theorem witness_StrictStepStopsAtNotKeyed :
    (∃ t, step (emptyState []) = .next t ∧ t.notKeyedSeen = false) ∧
      (∃ t, step (emptyState [offer 0x20000000000000041#66]) = .next t ∧ t.notKeyedSeen = true) ∧
      ({ emptyState [] with notKeyedSeen := true } : State).notKeyedSeen = true :=
  ⟨⟨_, rfl, rfl⟩, ⟨_, step_offered (w := 0x20000000000000041#66) rfl (by decide) (exec_xlate_empty 0x41#8 rfl), rfl⟩, rfl⟩

theorem witness_TranslateUsesConsecutiveKeystream :
    ∀ i ∈ [Instr.xlate 0x41#8, .nop], isBodyCommand i = true := by decide

theorem witness_TranslationIsAllOrNothing :
    ∃ t r, (readyState []).transact (.xlate 0x41#8) = some (t, r) ∧ r.err = false :=
  ⟨_, ⟨false, 0x41#8 ^^^ (readyState []).block.next.1⟩, by rw [State.transact, exec_xlate_ready _ rfl]; rfl, rfl⟩

theorem witness_KeystreamIndependentOfData : ([0x41, 0x42] : List Byte).length = ([0x00, 0xFF] : List Byte).length := rfl

theorem witness_KeyReuseExposesDifference : ([0x41] : List Byte).length = ([0x00] : List Byte).length := rfl

theorem witness_WipeClearsEverything : opField 0x30000000000000001#66 = 0b11#2 := by decide

theorem witness_WipeInEmptyIsNoOp : State.reset.Inv ∧ State.reset.block.phase = .empty := ⟨emptyState_inv [], rfl⟩

/-- Two states that differ in `K` only. -/
theorem witness_KeyBytesNeverInfluenceResponses :
    ∃ s s' : State, s.block.perm = s'.block.perm ∧ s.block.indexI = s'.block.indexI ∧ s.block.indexJ = s'.block.indexJ ∧
      s.block.phase = s'.block.phase ∧ s.block.keyBytes ≠ s'.block.keyBytes :=
  ⟨readyState [],
    { readyState [] with block := { identityBlock 0x00 0x00 with keyBytes := #v[8, 7, 6, 5, 4, 3, 2, 1] } },
    rfl, rfl, rfl, rfl, by decide⟩

/-- From `EMPTY` to `READY` by `LOADKEY`; from `READY` to `EMPTY` by `WIPE`, and by `rst`. -/
theorem witness_PhaseChangesOnlyByCommand :
    (∃ t, step (emptyState [offer 0x10102030405060708#66]) = .next t ∧ t.block.phase = .ready) ∧
    (∃ t, step (readyState [offer 0x30000000000000000#66]) = .next t ∧ t.block.phase = .empty) ∧
    (∃ t, step (readyState [resetEdge]) = .next t ∧ t.block.phase = .empty) := by
  refine ⟨?_, ?_, ⟨_, step_passed rfl, rfl⟩⟩
  · obtain ⟨b, hb⟩ : ∃ b, b = (emptyState [offer 0x10102030405060708#66]).popEdge.block.loadkey 0x0102030405060708#64 :=
      ⟨_, rfl⟩
    refine ⟨_, step_offered (w := 0x10102030405060708#66) rfl (by decide) (exec_loadkey_to hb), ?_⟩
    rw [State.respond_block, hb, Block.loadkey_phase]
  · obtain ⟨b, hb⟩ : ∃ b, b = (readyState [offer 0x30000000000000000#66]).popEdge.block.wipe := ⟨_, rfl⟩
    refine ⟨_, step_offered (w := 0x30000000000000000#66) rfl (by decide) (exec_wipe_to hb), ?_⟩
    rw [State.respond_block, hb, Block.wipe_phase]

theorem witness_StateWrittenOnlyByItsWriters :
    ∃ t, step (readyState [offer 0x20000000000000041#66]) = .next t :=
  ⟨_, step_offered (w := 0x20000000000000041#66) rfl (by decide) (exec_xlate_ready 0x41#8 rfl)⟩

theorem witness_LifecycleTable :
    (State.reset.Inv ∧ State.reset.block.phase = .empty) ∧
      ((readyState [resetEdge]).Inv ∧ (readyState [resetEdge]).block.phase = .ready ∧
        (readyState [resetEdge]).edges = [resetEdge] ∧ resetEdge.rst = true) :=
  ⟨⟨emptyState_inv [], rfl⟩, readyState_inv _, rfl, rfl, rfl⟩

theorem witness_SessionEndsClean : ∀ i ∈ [Instr.xlate 0x41#8, .nop, .xlate 0x00#8], isBodyCommand i = true := by decide

/-- A command of each clause with its next state, in the phase the clause asks for. -/
theorem witness_ResponseWordLayout :
    (∃ t, exec .nop (readyState []) = .next t) ∧ (∃ t, exec .wipe (readyState []) = .next t) ∧
      (∃ t, exec (.loadkey 0x0#64) (readyState []) = .next t) ∧
      (∃ t, exec (.xlate 0x41#8) (readyState []) = .next t ∧ (readyState []).block.phase = .ready) ∧
      ∃ t, exec (.xlate 0x41#8) (emptyState []) = .next t ∧ (emptyState []).block.phase = .empty :=
  ⟨⟨_, exec_nop _⟩, ⟨_, exec_wipe _⟩, ⟨_, exec_loadkey _ _⟩, ⟨_, exec_xlate_ready _ rfl, rfl⟩, _,
    exec_xlate_empty _ rfl, rfl⟩

/-- A response pending at an edge that presents a command and takes no response, and at one that takes it. -/
theorem witness_HandshakeHoldsResponse :
    (({ readyState [offer 0x30000000000000000#66] with response := some ⟨false, 0x43⟩ } : State).edges =
        [offer 0x30000000000000000#66] ∧ (offer 0x30000000000000000#66).rst = false ∧
      (offer 0x30000000000000000#66).rspReady = false) ∧
    (({ readyState [take] with response := some ⟨false, 0x43⟩ } : State).edges = [take] ∧ take.rst = false ∧
      take.rspReady = true) := ⟨⟨rfl, rfl, rfl⟩, rfl, rfl, rfl⟩

theorem witness_HandshakeRefinesTransactions :
    (readyState [offer 0x20000000000000041#66, take, offer 0x30000000000000000#66]).response = none ∧
      ∀ e ∈ (readyState [offer 0x20000000000000041#66, take, offer 0x30000000000000000#66]).edges, e.rst = false :=
  ⟨rfl, by simp [readyState, offer, take]⟩

theorem witness_DrivenCommandsAreCarriedOut :
    (emptyState (driveEdges [.nop, .xlate 0x41#8])).response = none ∧
      (emptyState (driveEdges [.nop, .xlate 0x41#8])).edges = driveEdges [.nop, .xlate 0x41#8] := ⟨rfl, rfl⟩

end Sys2Proof.Tests
end

section
/-! The reset state (10_state.md R19) and the block `WIPE` leaves (43_destruction.md R100). -/

namespace Sys2Proof.Machine

@[simp] theorem Block.reset_entry (a : Byte) : Block.reset.entry a = 0x00 := by
  rw [Block.entry, Block.reset_perm, Memory.read_nil, Memory.unlisted]

@[simp] theorem Block.reset_keyByte (n : Nat) : Block.reset.keyByte n = 0x00 := by
  simp [Block.keyByte, Block.reset]

@[simp] theorem Block.wipe_keyBytes (b : Block) : b.wipe.keyBytes = Block.reset.keyBytes := by
  ext k hk
  simp [Block.wipe, Block.reset]

/-- Two blocks are equal when their five pieces of state (10_state.md R14) are. -/
theorem Block.eq_of_fields {b c : Block} (hperm : b.perm = c.perm) (hi : b.indexI = c.indexI) (hj : b.indexJ = c.indexJ)
    (hkey : b.keyBytes = c.keyBytes) (hphase : b.phase = c.phase) : b = c := by
  cases b
  cases c
  simp_all

/-- The array after `WIPE` is the reset array as data, since a fill with 0x00 lists no cell (`Memory.fill_unlisted`). -/
theorem Block.wipe_eq_reset (b : Block) : b.wipe = Block.reset :=
  Block.eq_of_fields (by rw [Block.wipe_perm, Block.reset_perm]) (by rw [Block.wipe_indexI, Block.reset_indexI])
    (by rw [Block.wipe_indexJ, Block.reset_indexJ]) (Block.wipe_keyBytes b)
    (by rw [Block.wipe_phase, Block.reset_phase])

@[simp] theorem State.reset_stKeyed : State.reset.stKeyed = false := by
  rw [State.stKeyed, State.reset_block, Block.reset_phase, Phase.bit]

/-- Settles O9: the reset block read value by value, and `WIPE` field by field. -/
theorem resetStateIsZero : Obligations.ResetStateIsZero := by
  unfold Obligations.ResetStateIsZero
  rw [State.reset_block]
  exact ⟨Block.reset_entry, Block.reset_indexI, Block.reset_indexJ, Block.reset_keyByte, Block.reset_phase,
    State.reset_stKeyed, State.reset_response, Block.wipe_eq_reset⟩

end Sys2Proof.Machine
end

section
/-! The host's key from an 8-byte source (20_memory.md R33) read back byte by byte (R32). -/

namespace Sys2Proof.Machine

@[simp] theorem littleEndian_cons (b : Byte) (bs : List Byte) :
    littleEndian (b :: bs) = b.toNat + 256 * littleEndian bs := rfl

theorem littleEndian_lt (bs : List Byte) : littleEndian bs < 2 ^ (8 * bs.length) := by
  induction bs with
  | nil => exact Nat.one_pos
  | cons b bs ih =>
    have hb : b.toNat < 256 := b.isLt
    rw [littleEndian_cons, List.length_cons, Nat.mul_succ, Nat.pow_add]
    omega

/-- The byte with weight `2 ^ (8 * k)` of the number is element `k` of the list: each division by 256 drops the head. -/
theorem littleEndian_div_mod {bs : List Byte} {k : Nat} (hk : k < bs.length) :
    littleEndian bs / 2 ^ (8 * k) % 256 = bs[k].toNat := by
  induction bs generalizing k with
  | nil => exact absurd hk (Nat.not_lt_zero k)
  | cons b bs ih =>
    have hb : b.toNat < 256 := b.isLt
    cases k with
    | zero => simp [Nat.mod_eq_of_lt hb]
    | succ k =>
      have hdrop : littleEndian (b :: bs) / 256 = littleEndian bs := by
        rw [littleEndian_cons]; omega
      rw [Nat.mul_succ, Nat.pow_add', ← Nat.div_div_eq_div_mul, hdrop, List.getElem_cons_succ]
      exact ih (Nat.lt_of_succ_lt_succ hk)

/-- Eight bytes fit the key operand, so the assembly loses nothing. -/
theorem keyOfSource_toNat (src : Vector Byte Config.keyLen) : (keyOfSource src).toNat = littleEndian src.toList := by
  have hlt : littleEndian src.toList < 2 ^ (8 * src.toList.length) := littleEndian_lt _
  rw [Vector.length_toList] at hlt
  rw [keyOfSource, BitVec.toNat_ofNat]
  exact Nat.mod_eq_of_lt hlt

/-- Source byte `k` stands in bits `8 * k + 7` to `8 * k` of the key. -/
theorem keyOfSource_extractLsb' (src : Vector Byte Config.keyLen) {k : Nat} (hk : k < Config.keyLen) :
    (keyOfSource src).extractLsb' (8 * k) 8 = src[k] := by
  apply BitVec.eq_of_toNat_eq
  rw [BitVec.extractLsb'_toNat, Nat.shiftRight_eq_div_pow, keyOfSource_toNat]
  exact littleEndian_div_mod (by rwa [Vector.length_toList])

/-- Shift and mask (40_construction.md R71) is the slice of the key's bits. -/
theorem keySlice_eq_extractLsb' (key : KeyWord) (k : Nat) : keySlice key k = key.extractLsb' (8 * k) 8 := by
  apply BitVec.eq_of_toNat_eq
  rw [BitVec.extractLsb'_toNat, Packed.keySlice_eq, Packed.get]

@[simp] theorem keySplit_getElem (key : KeyWord) {k : Nat} (hk : k < Config.keyLen) :
    (keySplit key)[k] = key.extractLsb' (8 * k) 8 := by
  rw [keySplit, Vector.getElem_ofFn, keySlice_eq_extractLsb']

/-- `KEYSPLIT` undoes the host's assembly. -/
theorem keySplit_keyOfSource (src : Vector Byte Config.keyLen) : keySplit (keyOfSource src) = src := by
  ext1 k hk
  rw [keySplit_getElem _ hk, keyOfSource_extractLsb' src hk]

/-- Settles O20: the key's slices are the source's bytes, so `KEYSPLIT` gives the source back, and `LOADKEY` and
scheduling's reads of `K` follow. -/
theorem sourceBytesBecomeKeyBytes : Obligations.SourceBytesBecomeKeyBytes := by
  unfold Obligations.SourceBytesBecomeKeyBytes
  intro b src
  refine ⟨keyOfSource_extractLsb' src (k := 0) (by decide), keyOfSource_extractLsb' src (k := 7) (by decide), ?_,
    fun n => ?_⟩
  · rw [Block.loadkey_keyBytes, keySplit_keyOfSource]
  · simp only [Block.keyByte, Block.splitKey_keyBytes, keySplit_keyOfSource]

end Sys2Proof.Machine
end

section
/-! The fields of a command word as the encoder fills them, and which words are canonical (30_encoding.md R52 to R55). -/

namespace Sys2Proof

/-- `XLATE`'s reading of `ARG`: the bits it ignores above its data byte. -/
theorem argField_eq_append (w : CommandWord) : argField w = w.extractLsb' 8 56 ++ dinField w := by
  rw [argField, dinField]
  exact (BitVec.extractLsb'_append_extractLsb'_eq_extractLsb' (len₁ := 8) (len₂ := 56) rfl).symm

theorem dinField_fields (op : BitVec 2) (ignored : BitVec 56) (din : Byte) :
    dinField (op ++ (ignored ++ din)) = din := by
  rw [dinField_eq, argField_fields]
  exact BitVec.extractLsb'_append_eq_right

/-- A word put together from the `OP` of `w` and some `ARG` is `w` exactly when that is the `ARG` of `w`. -/
theorem fields_eq_iff_argField {w : CommandWord} {op : BitVec 2} (h : opField w = op) (arg : KeyWord) :
    op ++ arg = w ↔ argField w = arg := by
  calc op ++ arg = w ↔ op ++ arg = op ++ argField w := by rw [← h, fields_eq]
    _ ↔ arg = argField w := BitVec.append_right_inj op
    _ ↔ argField w = arg := eq_comm

/-- `ARG` is a bare data byte when the bits `XLATE` ignores are 0. -/
theorem argField_eq_zero_append_dinField_iff (w : CommandWord) :
    argField w = 0#56 ++ dinField w ↔ w.extractLsb' 8 56 = 0#56 := by
  rw [argField_eq_append]
  exact BitVec.append_left_inj (dinField w)

theorem opField_getLsbD (w : CommandWord) {i : Nat} (hi : i < 2) : (opField w).getLsbD i = w.getLsbD (64 + i) := by
  rw [opField, BitVec.getLsbD_extractLsb', decide_eq_true hi, Bool.true_and]

/-- The two bits `canonicalWord` looks at are those of `OP`. -/
theorem getLsbD_of_opField {w : CommandWord} {op : BitVec 2} (h : opField w = op) :
    w.getLsbD 65 = op.getLsbD 1 ∧ w.getLsbD 64 = op.getLsbD 0 := by
  subst h
  exact ⟨(opField_getLsbD w Nat.one_lt_two).symm, (opField_getLsbD w Nat.two_pos).symm⟩

theorem canonicalWord_of_op00 {w : CommandWord} (h : opField w = 0b00#2) :
    canonicalWord w = true ↔ argField w = 0#64 := by
  obtain ⟨h65, h64⟩ := getLsbD_of_opField h
  rw [canonicalWord, h65, h64]
  exact beq_iff_eq

theorem canonicalWord_of_op01 {w : CommandWord} (h : opField w = 0b01#2) : canonicalWord w = true := by
  obtain ⟨h65, h64⟩ := getLsbD_of_opField h
  rw [canonicalWord, h65, h64]
  rfl

theorem canonicalWord_of_op10 {w : CommandWord} (h : opField w = 0b10#2) :
    canonicalWord w = true ↔ w.extractLsb' 8 56 = 0#56 := by
  obtain ⟨h65, h64⟩ := getLsbD_of_opField h
  rw [canonicalWord, h65, h64]
  exact beq_iff_eq

theorem canonicalWord_of_op11 {w : CommandWord} (h : opField w = 0b11#2) :
    canonicalWord w = true ↔ argField w = 0#64 := by
  obtain ⟨h65, h64⟩ := getLsbD_of_opField h
  rw [canonicalWord, h65, h64]
  exact beq_iff_eq

/-- Words with one `OP` that agree in the operand that `OP` names are one command. -/
theorem decode_eq_of_fields_eq {v w : CommandWord} (hop : opField v = opField w)
    (hkey : opField v = 0b01#2 → argField v = argField w) (hdin : opField v = 0b10#2 → dinField v = dinField w) :
    decode v = decode w := by
  rcases opField_cases v with h | h | h | h
  · rw [decode_of_op00 h, decode_of_op00 (hop ▸ h)]
  · rw [decode_of_op01 h, decode_of_op01 (hop ▸ h), hkey h]
  · rw [decode_of_op10 h, decode_of_op10 (hop ▸ h), hdin h]
  · rw [decode_of_op11 h, decode_of_op11 (hop ▸ h)]

/-- The encoder keeps the operand and writes 0 elsewhere, so it gives the word back when the word had 0 there. -/
theorem canonicalWord_iff_encode_decode (w : CommandWord) : canonicalWord w = true ↔ encode (decode w) = w := by
  rcases opField_cases w with h | h | h | h
  · rw [canonicalWord_of_op00 h, decode_of_op00 h, encode, fields_eq_iff_argField h]
  · rw [decode_of_op01 h, encode, fields_eq_iff_argField h]
    exact iff_of_true (canonicalWord_of_op01 h) rfl
  · rw [canonicalWord_of_op10 h, decode_of_op10 h, encode, fields_eq_iff_argField h,
      argField_eq_zero_append_dinField_iff]
  · rw [canonicalWord_of_op11 h, decode_of_op11 h, encode, fields_eq_iff_argField h]

/-- Settles O3, by cases on `OP`: the decoder reads the operand only, and the encoder writes 0 in every ignored bit. -/
theorem decodeIgnoresUnusedBits : Obligations.DecodeIgnoresUnusedBits := by
  unfold Obligations.DecodeIgnoresUnusedBits
  exact ⟨fun _ _ => decode_eq_of_fields_eq, canonicalWord_iff_encode_decode⟩

/-- Settles O2: the decoder's four cases, and the fields of a word put together from `OP` and an operand. -/
theorem decodeFollowsOpcode : Obligations.DecodeFollowsOpcode := by
  unfold Obligations.DecodeFollowsOpcode
  refine ⟨fun w => ⟨decode_of_op00, decode_of_op01, decode_of_op10, decode_of_op11, opField_cases w⟩, fun key => ?_,
    fun ignored din => ?_⟩
  · rw [decode_of_op01 (opField_fields _ key), argField_fields]
  · rw [decode_of_op10 (opField_fields _ (ignored ++ din)), dinField_fields]

end Sys2Proof
end

section
/-! The response word and what each command presents on `rsp_word` (30_encoding.md R56). -/

namespace Sys2Proof.Machine

/-- Without an error the data byte stands below a 0 bit. -/
theorem Response.word_of_success (data : Byte) : Response.word ⟨false, data⟩ = 0b0#1 ++ data := rfl

theorem Response.word_getLsbD_err (r : Response) : r.word.getLsbD 8 = r.err := by
  rw [Response.word]
  exact BitVec.getLsbD_append.trans (by simp)

theorem Response.word_extractLsb'_data (r : Response) : r.word.extractLsb' 0 8 = r.data :=
  BitVec.extractLsb'_append_eq_right

theorem State.rspWord_of_response {s : State} {r : Response} (h : s.response = some r) : s.rspWord = r.word := by
  rw [State.rspWord, h]

/-- `rsp_word` after a command shows the response of the state the command is known to leave. -/
theorem exec_rspWord {i : Instr} {s t u : State} {r : Response} (h : exec i s = .next t) (hu : exec i s = .next u)
    (hr : u.response = some r) : t.rspWord = r.word := by
  obtain rfl : t = u := Host.Outcome.next.inj (h.symm.trans hu)
  exact State.rspWord_of_response hr

/-- Settles O52: the two fields of the word, then the response of each command in each phase. -/
theorem responseWordLayout : Obligations.ResponseWordLayout := by
  unfold Obligations.ResponseWordLayout
  refine ⟨fun r => ⟨r.word_getLsbD_err, r.word_extractLsb'_data⟩, fun s t => ⟨?_, fun din h hp => ?_,
    fun din h hp => ?_⟩⟩
  · rintro i (rfl | rfl | ⟨key, rfl⟩) h
    · exact exec_rspWord h (exec_nop s) (State.respond_response ..)
    · exact exec_rspWord h (exec_wipe s) (State.respond_response ..)
    · obtain ⟨b, hb⟩ : ∃ b, b = s.block.loadkey key := ⟨_, rfl⟩
      exact exec_rspWord h (exec_loadkey_to hb) (State.respond_response ..)
  · rw [exec_rspWord h (exec_xlate_ready din hp) (State.respond_response ..), Response.word_of_success]
  · exact exec_rspWord h (exec_xlate_empty din hp) s.raiseNotKeyed_response

end Sys2Proof.Machine
end

section
/-! Permutations of the array (10_state.md R15), said of the array alone, and what keeps them: a swap and `NEXT()`. -/

namespace Sys2Proof.Machine

/-- The map `a -> S[a]` of an array is a bijection on 0..255 (10_state.md R15). -/
def Memory.IsPermutation (m : Memory) : Prop := Function.Bijective fun a : Byte => m.read a.toNat

/-- The permutation property of a block is one of its array. -/
theorem Block.isPermutation_iff (b : Block) : b.IsPermutation ↔ b.perm.IsPermutation := Iff.rfl

/-- A read after a swap, with the first of the two locations looked at first. -/
theorem Memory.read_swap_left (m : Memory) (a b x : Nat) :
    (m.swap a b).read x = if x = a then m.read b else if x = b then m.read a else m.read x := by
  rw [Memory.read_swap_eq, Equiv.swap_apply_def]
  split_ifs <;> rfl

/-- The entries after a swap of two 8-bit indices are those before it, after the transposition of the indices. -/
theorem Memory.read_swap_byte (m : Memory) (a b x : Byte) :
    (m.swap a.toNat b.toNat).read x.toNat = m.read (Equiv.swap a b x).toNat := by
  rw [Memory.read_swap_eq, ← BitVec.toNat_injective.swap_apply]

/-- A location of the array as an 8-bit index. -/
theorem byte_toNat_ofNat {a : Nat} (ha : a < Config.nPerm) : (BitVec.ofNat 8 a).toNat = a := by
  rw [BitVec.toNat_ofNat, Nat.mod_eq_of_lt ha]

/-- Exchanging two entries of a permutation gives a permutation. -/
theorem Memory.isPermutation_swap {m : Memory} (h : m.IsPermutation) {a b : Nat} (ha : a < Config.nPerm)
    (hb : b < Config.nPerm) : (m.swap a b).IsPermutation := by
  obtain ⟨a, rfl⟩ : ∃ c : Byte, c.toNat = a := ⟨BitVec.ofNat 8 a, byte_toNat_ofNat ha⟩
  obtain ⟨b, rfl⟩ : ∃ c : Byte, c.toNat = b := ⟨BitVec.ofNat 8 b, byte_toNat_ofNat hb⟩
  have hcomp : (fun x : Byte => (m.swap a.toNat b.toNat).read x.toNat) =
      (fun x : Byte => m.read x.toNat) ∘ Equiv.swap a b := funext (Memory.read_swap_byte m a b)
  rw [Memory.IsPermutation, hcomp]
  exact h.comp (Equiv.swap a b).bijective

/-- An array in canonical form has no cell past its 256 locations. -/
theorem Memory.read_of_nPerm_le {m : Memory} (h : m.wf) {a : Nat} (ha : Config.nPerm ≤ a) :
    m.read a = Memory.unlisted :=
  Memory.read_eq_unlisted m a fun c hc => Nat.ne_of_lt (Nat.lt_of_lt_of_le (h.2 c hc).1 ha)

/-- The one array write of `NEXT()` is a swap (41_byte_generation.md R83). -/
theorem Block.next_isPermutation {b : Block} (h : b.IsPermutation) : b.next.2.IsPermutation := by
  rw [Block.isPermutation_iff, Block.next_perm]
  exact Memory.isPermutation_swap h (index_lt _) (index_lt _)

theorem Block.advance_isPermutation {b : Block} (h : b.IsPermutation) (n : Nat) :
    (Block.advance n b).IsPermutation := by
  induction n generalizing b with
  | zero => exact h
  | succ n ih => exact ih (Block.next_isPermutation h)

/-- `i` counts the steps of `NEXT()`, mod 256. -/
theorem Block.advance_indexI (n : Nat) (b : Block) : (Block.advance n b).indexI = b.indexI + BitVec.ofNat 8 n := by
  induction n generalizing b with
  | zero => exact (BitVec.add_zero _).symm
  | succ n ih =>
    rw [Block.advance_succ, ih, Block.next_indexI, BitVec.ofNat_add, BitVec.add_assoc, BitVec.add_comm 1]
    rfl

/-- `NEXT()` does not look at the phase. -/
theorem Block.next_byte_of_phase (b : Block) (p : Phase) : (Block.next { b with phase := p }).1 = b.next.1 := rfl

end Sys2Proof.Machine
end

section
/-! The first two steps of construction: key split and identity fill (40_construction.md R71, R72). -/

namespace Sys2Proof.Machine

/-- A bit slice of the key as a number: shift, then mask (40_construction.md R71). -/
theorem toNat_key_extractLsb' (key : KeyWord) (k : Nat) :
    (key.extractLsb' (8 * k) 8).toNat = key.toNat / 2 ^ (8 * k) % 256 := by
  rw [BitVec.extractLsb'_toNat, Nat.shiftRight_eq_div_pow]

/-- Settles O19: the bytes are the key's bit slices, and the rest of the block is not written. -/
theorem keySplitIsLittleEndian : Obligations.KeySplitIsLittleEndian := by
  unfold Obligations.KeySplitIsLittleEndian
  intro b key
  refine ⟨fun k hk => ?_, Block.splitKey_perm b key, Block.splitKey_indexI b key, Block.splitKey_indexJ b key,
    Block.splitKey_phase b key⟩
  have hslice : (b.splitKey key).keyBytes[k] = key.extractLsb' (8 * k) 8 := keySplit_getElem key hk
  exact ⟨hslice, by rw [hslice, toNat_key_extractLsb']⟩

/-- The identity array is a bijection: its map of indices to entries is the identity. -/
theorem Block.identity_isPermutation (b : Block) : b.identity.IsPermutation := by
  rw [Block.IsPermutation, show b.identity.entry = id from funext b.identity_entry]
  exact Function.bijective_id

/-- Settles O21: entry by entry the identity, so a bijection, and only the array is written. -/
theorem identityFillsArray : Obligations.IdentityFillsArray := by
  unfold Obligations.IdentityFillsArray
  exact fun b => ⟨b.identity_entry, b.identity_isPermutation, b.identity_indexI, b.identity_indexJ,
    b.identity_keyBytes, b.identity_phase⟩

end Sys2Proof.Machine
end

section
/-! Scheduling (40_construction.md R73) iteration by iteration. -/

namespace Sys2Proof.Machine

/-- The array and the accumulator after the first `n` iterations of scheduling. -/
def Block.scheduleRun (b : Block) (n : Nat) : Memory × Byte :=
  (List.range n).foldl (scheduleStep b) (b.perm, 0x00)

@[simp] theorem Block.scheduleRun_zero (b : Block) : b.scheduleRun 0 = (b.perm, 0x00) := rfl

theorem Block.scheduleRun_succ (b : Block) (n : Nat) :
    b.scheduleRun (n + 1) = scheduleStep b (b.scheduleRun n) n := by
  rw [Block.scheduleRun, List.range_succ, List.foldl_concat, ← Block.scheduleRun]

/-- Scheduling is 256 iterations. -/
theorem Block.schedule_perm_eq_run (b : Block) : b.schedule.perm = (b.scheduleRun Config.nPerm).1 :=
  Block.schedule_perm b

/-- Iteration `n` adds three bytes, the entry as it stands before the swap of that iteration. -/
theorem Block.scheduleRun_acc (b : Block) (n : Nat) :
    (b.scheduleRun (n + 1)).2 = (b.scheduleRun n).2 + (b.scheduleRun n).1.read n + b.keyByte n := by
  rw [Block.scheduleRun_succ, scheduleStep]

theorem Block.scheduleRun_acc_toNat (b : Block) (n : Nat) :
    (b.scheduleRun (n + 1)).2.toNat =
      ((b.scheduleRun n).2.toNat + ((b.scheduleRun n).1.read n).toNat + (b.keyByte n).toNat) % 256 := by
  rw [Block.scheduleRun_acc, BitVec.toNat_add, BitVec.toNat_add, Nat.mod_add_mod]

/-- Iteration `n` exchanges entry `n` and the new accumulator's. -/
theorem Block.scheduleRun_perm (b : Block) (n : Nat) :
    (b.scheduleRun (n + 1)).1 = (b.scheduleRun n).1.swap n (b.scheduleRun (n + 1)).2.toNat := by
  rw [Block.scheduleRun_succ, scheduleStep]

theorem Block.scheduleRun_read (b : Block) (n x : Nat) :
    (b.scheduleRun (n + 1)).1.read x =
      if x = n then (b.scheduleRun n).1.read (b.scheduleRun (n + 1)).2.toNat
      else if x = (b.scheduleRun (n + 1)).2.toNat then (b.scheduleRun n).1.read n else (b.scheduleRun n).1.read x := by
  rw [Block.scheduleRun_perm, Memory.read_swap_left]

/-- Every iteration of scheduling is a swap, so each keeps a permutation. -/
theorem Block.scheduleRun_isPermutation {b : Block} (h : b.IsPermutation) {n : Nat} (hn : n ≤ Config.nPerm) :
    (b.scheduleRun n).1.IsPermutation := by
  induction n with
  | zero => exact h
  | succ n ih =>
    rw [Block.scheduleRun_perm]
    exact Memory.isPermutation_swap (ih (Nat.le_of_succ_le hn)) hn (index_lt _)

theorem Block.schedule_isPermutation {b : Block} (h : b.IsPermutation) : b.schedule.IsPermutation := by
  rw [Block.isPermutation_iff, Block.schedule_perm_eq_run]
  exact Block.scheduleRun_isPermutation h le_rfl

/-- What scheduling makes of the array is a function of the array and the key bytes alone. -/
theorem Block.schedule_perm_congr {b c : Block} (hperm : b.perm = c.perm) (hkey : b.keyBytes = c.keyBytes) :
    b.schedule.perm = c.schedule.perm := by
  have hstep : scheduleStep b = scheduleStep c := by
    funext p n
    simp only [scheduleStep, Block.keyByte, hkey]
  rw [Block.schedule_perm, Block.schedule_perm, hperm, hstep]

/-- Settles O22: the recurrences are the run of scheduling, read iteration by iteration. -/
theorem scheduleIsOneForwardPass : Obligations.ScheduleIsOneForwardPass := by
  unfold Obligations.ScheduleIsOneForwardPass
  intro b
  refine ⟨⟨fun n => (b.scheduleRun n).2.toNat, fun n x => (b.scheduleRun n).1.read x, rfl, fun _ => rfl,
    fun n _ => ⟨b.scheduleRun_acc_toNat n, b.scheduleRun_read n⟩, fun v => ?_⟩, Block.schedule_isPermutation,
    b.schedule_indexI, b.schedule_indexJ, b.schedule_keyBytes, b.schedule_phase⟩
  rw [Block.entry, Block.schedule_perm_eq_run]

end Sys2Proof.Machine
end

section
/-! `LOADKEY` put together from its steps (40_construction.md R70 to R77). -/

namespace Sys2Proof.Machine

/-- Priming starts at `i` = 0, and its 1024 steps are four full turns of `i` (40_construction.md R75). -/
@[simp] theorem Block.loadkey_indexI_zero (b : Block) (key : KeyWord) : (b.loadkey key).indexI = 0x00 := by
  rw [Block.loadkey_indexI, Block.advance_indexI, Block.resetIndices_indexI]
  decide

/-- From the identity fill on, construction only swaps. -/
theorem Block.loadkey_isPermutation (b : Block) (key : KeyWord) : (b.loadkey key).IsPermutation := by
  rw [Block.isPermutation_iff, Block.loadkey_perm, ← Block.isPermutation_iff]
  apply Block.advance_isPermutation
  rw [Block.isPermutation_iff, Block.resetIndices_perm, ← Block.isPermutation_iff]
  exact Block.schedule_isPermutation (Block.identity_isPermutation _)

/-- Settles O17: `LOADKEY`'s one outcome, its block read field by field. -/
theorem loadkeyCompletes : Obligations.LoadkeyCompletes := by
  unfold Obligations.LoadkeyCompletes
  intro key s
  obtain ⟨b, hb⟩ : ∃ b, b = s.block.loadkey key := ⟨_, rfl⟩
  have hready : b.phase = .ready := by rw [hb, Block.loadkey_phase]
  have hwf : b.perm.wf := hb ▸ Block.loadkey_wf s.block key
  refine ⟨State.respond { s with block := b } false 0x00, exec_loadkey_to hb, rfl, hb, hready, ?_, ?_, ?_, ?_,
    fun a ha => Memory.read_of_nPerm_le hwf ha, rfl, rfl, rfl⟩
  · rw [State.stKeyed, State.respond_block, hready, Phase.bit]
  · rw [State.respond_block, hb, Block.loadkey_indexI_zero]
  · rw [State.respond_block, hb, Block.loadkey_keyBytes]
  · rw [State.respond_block, hb]
    exact Block.loadkey_isPermutation s.block key

/-- Construction overwrites before it reads (40_construction.md R77): the identity fill leaves nothing of the old array,
scheduling reads that and the new key bytes only, and priming reads the scheduled array and the indices just reset. -/
theorem Block.loadkey_eq_loadkey (b c : Block) (key : KeyWord) : b.loadkey key = c.loadkey key := by
  have hsched : (b.splitKey key).identity.schedule.perm = (c.splitKey key).identity.schedule.perm :=
    Block.schedule_perm_congr (by rw [Block.identity_perm, Block.identity_perm])
      (by rw [Block.identity_keyBytes, Block.identity_keyBytes, Block.splitKey_keyBytes, Block.splitKey_keyBytes])
  obtain ⟨hperm, hi, hj⟩ := Block.advance_congr Config.primeCount
    (b := (b.splitKey key).identity.schedule.resetIndices) (c := (c.splitKey key).identity.schedule.resetIndices)
    (by rw [Block.resetIndices_perm, Block.resetIndices_perm, hsched])
    (by rw [Block.resetIndices_indexI, Block.resetIndices_indexI])
    (by rw [Block.resetIndices_indexJ, Block.resetIndices_indexJ])
  exact Block.eq_of_fields (by rw [Block.loadkey_perm, Block.loadkey_perm, hperm])
    (by rw [Block.loadkey_indexI, Block.loadkey_indexI, hi]) (by rw [Block.loadkey_indexJ, Block.loadkey_indexJ, hj])
    (by rw [Block.loadkey_keyBytes, Block.loadkey_keyBytes]) (by rw [Block.loadkey_phase, Block.loadkey_phase])

/-- Settles O18: all three equations compare the blocks `LOADKEY key` leaves from two blocks. -/
theorem loadkeyDependsOnKeyOnly : Obligations.LoadkeyDependsOnKeyOnly := by
  unfold Obligations.LoadkeyDependsOnKeyOnly
  exact fun b c key => ⟨Block.loadkey_eq_loadkey b c key, Block.loadkey_eq_loadkey _ b key,
    Block.loadkey_eq_loadkey _ b key⟩

/-- The identity array at a number below 256. -/
theorem Block.identity_read_toNat (b : Block) {x : Nat} (hx : x < 256) : (b.identity.perm.read x).toNat = x := by
  rw [Block.identity_perm, Memory.read_fill _ x hx, byte_toNat_ofNat hx]

/-- The key byte of scheduling iteration `n` as a slice of the key's number. -/
theorem Block.keyByte_toNat {b : Block} {key : KeyWord} (h : b.keyBytes = keySplit key) (n : Nat) :
    (b.keyByte n).toNat = key.toNat / 2 ^ (8 * (n % 8)) % 256 := by
  simp only [Block.keyByte, h, keySplit_getElem, toNat_key_extractLsb', Config.keyLen]

/-- Settles O57: scheduling from the identity array and priming from the scheduled one are the two recurrences; the
first `XLATE` after them takes the byte of one more `NEXT()`. -/
theorem loadkeyIsItsFiveSteps : Obligations.LoadkeyIsItsFiveSteps := by
  unfold Obligations.LoadkeyIsItsFiveSteps
  intro key s
  obtain ⟨c, hc⟩ : ∃ c, c = (s.block.splitKey key).identity := ⟨_, rfl⟩
  obtain ⟨d, hd⟩ : ∃ d, d = c.schedule.resetIndices := ⟨_, rfl⟩
  obtain ⟨run, hrun⟩ : ∃ run : Nat → Block, ∀ n, run n = Block.advance n d := ⟨_, fun _ => rfl⟩
  have hkey : c.keyBytes = keySplit key := by rw [hc, Block.identity_keyBytes, Block.splitKey_keyBytes]
  have hrun0 : run 0 = d := by rw [hrun, Block.advance_zero]
  have hidentity : ∀ x, x < 256 → ((c.scheduleRun 0).1.read x).toNat = x := fun x hx => by
    rw [Block.scheduleRun_zero, hc, Block.identity_read_toNat _ hx]
  have hacc : ∀ n, (c.scheduleRun (n + 1)).2.toNat = ((c.scheduleRun n).2.toNat +
      ((c.scheduleRun n).1.read n).toNat + key.toNat / 2 ^ (8 * (n % 8)) % 256) % 256 := fun n => by
    rw [Block.scheduleRun_acc_toNat, Block.keyByte_toNat hkey]
  have hblock : { run 1024 with phase := .ready } = s.block.loadkey key := by
    rw [Block.loadkey_eq, ← hc, ← hd, ← hrun]
  refine ⟨State.respond { s with block := { run 1024 with phase := .ready } } false 0x00,
    fun n => (c.scheduleRun n).2.toNat, fun n x => (c.scheduleRun n).1.read x, run, exec_loadkey_to hblock, rfl,
    fun k hk => ?keyBytes, hidentity, rfl, fun n _ => ⟨hacc n, c.scheduleRun_read n⟩,
    fun v => ?scheduled, ?indexI, ?indexJ, fun n _ => ?next, rfl, ?indexIAfter, fun din => ?firstByte⟩
  case keyBytes =>
    have hbytes : (run 0).keyBytes = keySplit key := by
      rw [hrun0, hd, Block.resetIndices_keyBytes, Block.schedule_keyBytes, hkey]
    simp only [hbytes]
    exact keySplit_getElem key hk
  case scheduled => rw [hrun0, hd, Block.entry, Block.resetIndices_perm, Block.schedule_perm_eq_run]
  case indexI => rw [hrun0, hd, Block.resetIndices_indexI]
  case indexJ => rw [hrun0, hd, Block.resetIndices_indexJ]
  case next => rw [hrun, hrun, Block.advance_succ_last]
  case indexIAfter => rw [State.respond_block, hblock, Block.loadkey_indexI_zero]
  case firstByte =>
    refine ⟨_, exec_xlate_ready din rfl, ?_⟩
    rw [State.respond_response, State.deliver_block, State.respond_block, Block.next_byte_of_phase]

end Sys2Proof.Machine
end

section
/-! Byte generation (41_byte_generation.md R80, R83): where `NEXT()` writes the array, and its four steps. -/

namespace Sys2Proof.Machine

/-- The array after `NEXT()` is the one before it, read through the transposition of the new `i` and the new `j`. -/
theorem Block.next_entry_eq_swap (b : Block) (a : Byte) :
    b.next.2.entry a = b.entry (Equiv.swap b.next.2.indexI b.next.2.indexJ a) := by
  rw [Block.entry, Block.next_perm, Memory.read_swap_byte, ← Block.entry]

/-- Settles O25: the one write is the swap of the array's two entries. -/
theorem nextKeepsPermutation : Obligations.NextKeepsPermutation := by
  unfold Obligations.NextKeepsPermutation
  exact fun b => ⟨b.next_entry_eq_swap, Block.next_isPermutation⟩

theorem Block.next_indexI_toNat (b : Block) : b.next.2.indexI.toNat = (b.indexI.toNat + 1) % 256 := by
  rw [Block.next_indexI, BitVec.toNat_add]
  rfl

/-- `j` steps by the entry at the new `i`, read before the swap. -/
theorem Block.next_indexJ_toNat (b : Block) :
    b.next.2.indexJ.toNat = (b.indexJ.toNat + (b.entry b.next.2.indexI).toNat) % 256 := by
  rw [Block.next_indexJ, ← Block.next_indexI, BitVec.toNat_add]

theorem Block.next_entry_indexI (b : Block) : b.next.2.entry b.next.2.indexI = b.entry b.next.2.indexJ := by
  rw [Block.next_entry_eq_swap, Equiv.swap_apply_left]

theorem Block.next_entry_indexJ (b : Block) : b.next.2.entry b.next.2.indexJ = b.entry b.next.2.indexI := by
  rw [Block.next_entry_eq_swap, Equiv.swap_apply_right]

theorem Block.next_entry_other (b : Block) {a : Byte} (hi : a ≠ b.next.2.indexI) (hj : a ≠ b.next.2.indexJ) :
    b.next.2.entry a = b.entry a := by
  rw [Block.next_entry_eq_swap, Equiv.swap_apply_of_ne_of_ne hi hj]

/-- The byte stands at the sum mod 256 of the two entries as the swap leaves them. -/
theorem Block.next_byte_of_selector (b : Block) {t : Byte}
    (ht : t.toNat = ((b.next.2.entry b.next.2.indexI).toNat + (b.next.2.entry b.next.2.indexJ).toNat) % 256) :
    b.next.1 = b.next.2.entry t := by
  have hsum : t = b.next.2.entry b.next.2.indexI + b.next.2.entry b.next.2.indexJ :=
    BitVec.eq_of_toNat_eq (by rw [ht, BitVec.toNat_add])
  rw [Block.next_byte, hsum]

/-- Settles O23: step `i`, step `j`, swap, select; the key bytes and the phase are not written. -/
theorem nextFollowsFourSteps : Obligations.NextFollowsFourSteps := by
  unfold Obligations.NextFollowsFourSteps
  exact fun b => ⟨b.next_indexI_toNat, b.next_indexJ_toNat, b.next_entry_indexI, b.next_entry_indexJ,
    fun _ => b.next_entry_other, fun _ => b.next_byte_of_selector, b.next_keyBytes, b.next_phase⟩

end Sys2Proof.Machine
end

section
/-! Translation (42_translation.md R90, R91): what `XLATE` in `READY` answers and leaves, and that `NOP` touches nothing. -/

namespace Sys2Proof.Machine

/-- `XLATE` in `READY` as one `NEXT()`: `din` enters the response's data byte and no other part of the state. -/
theorem exec_xlate_ready_fields (din : Byte) {s : State} (h : s.block.phase = .ready) :
    exec (.xlate din) s =
      .next { s with block := s.block.next.2, response := some ⟨false, din ^^^ s.block.next.1⟩ } := by
  rw [exec_xlate_ready din h, State.respond]

/-- Settles O28: `ks` and the block are the two parts of the one `NEXT()`, fixed before any `din` is given. -/
theorem xlateReadyResult : Obligations.XlateReadyResult := by
  unfold Obligations.XlateReadyResult
  refine ⟨fun s hready => ⟨s.block.next.2, s.block.next.1, rfl, fun din => ⟨exec_xlate_ready_fields din hready,
    s.block.next_keyBytes, ?_, ?_, ?_, ?_⟩⟩, fun w hop => ?_⟩
  · rw [Block.next_phase, hready]
  · rintro rfl
    exact BitVec.zero_xor
  · rintro rfl
    exact BitVec.allOnes_xor
  · rintro rfl
    exact BitVec.xor_self
  · rw [decode_of_op10 hop, dinField]

/-- Settles O15: `NOP`'s one outcome is the response `(0, 0x00)` put into the state it found. -/
theorem nopDoesNothing : Obligations.NopDoesNothing := by
  unfold Obligations.NopDoesNothing
  refine ⟨fun s => ⟨s.respond false 0x00, exec_nop s, State.respond_response s _ _, State.respond_block s _ _, fun a => ?_,
    State.respond_edges s _ _, State.respond_notKeyedSeen s _ _, State.respond_edgeCount s _ _⟩, fun w => decode_of_op00⟩
  rw [State.respond_block]

end Sys2Proof.Machine
end

section
/-! Destruction (43_destruction.md R100, R101): `WIPE` is the response `(0, 0x00)` over the reset block. -/

namespace Sys2Proof.Machine

/-- `WIPE` with its block given as the reset block, so that no later proof meets the fill. -/
theorem exec_wipe_reset (s : State) :
    exec .wipe s = .next (State.respond { s with block := Block.reset } false 0x00) :=
  exec_wipe_to (Block.wipe_eq_reset s.block).symm

/-- The reset array lists no cell, so it reads 0x00 at the addresses past its end as well (log 1). -/
@[simp] theorem Block.reset_read (a : Nat) : Block.reset.perm.read a = 0x00 := by
  rw [Block.reset_perm, Memory.read_nil, Memory.unlisted]

/-- Settles O44: a block in `EMPTY` is the reset block by the invariant, and the block `WIPE` leaves is the same one
whatever it wiped. -/
theorem wipeInEmptyIsNoOp : Obligations.WipeInEmptyIsNoOp := by
  unfold Obligations.WipeInEmptyIsNoOp
  refine ⟨fun s hinv hempty => ⟨_, exec_wipe_reset s, ?_, State.respond_response ..⟩, fun b => ?_⟩
  · rw [State.respond_block, hinv.emptyIsReset hempty]
  · rw [Block.wipe_eq_reset b.wipe, Block.wipe_eq_reset b]

/-- Settles O43: `WIPE`'s one outcome, its block read value by value as the reset block. -/
theorem wipeClearsEverything : Obligations.WipeClearsEverything := by
  unfold Obligations.WipeClearsEverything
  refine ⟨fun s => ⟨State.respond { s with block := Block.reset } false 0x00, exec_wipe_reset s,
    State.respond_response .., ?_⟩, fun w => decode_of_op11⟩
  have hkeyed : (State.respond { s with block := Block.reset } false 0x00).stKeyed = false := by
    rw [State.stKeyed, State.respond_block, Block.reset_phase, Phase.bit]
  rw [State.respond_block]
  exact ⟨Block.reset_read, Block.reset_indexI, Block.reset_indexJ, Block.reset_keyByte, Block.reset_phase, hkeyed, rfl,
    State.respond_edges .., State.respond_notKeyedSeen .., State.respond_edgeCount ..⟩

end Sys2Proof.Machine
end

section
/-! The commands as functions of the block (44_properties.md R111): the block each leaves and the response it gives,
and a run of commands as these one after another. Every `runCommands` succeeds, and it is this run (`runCommands_eq`). -/

namespace Sys2Proof.Machine

/-- The block a command leaves. -/
def Block.after (b : Block) : Instr → Block
  | .nop => b
  | .loadkey key => b.loadkey key
  | .xlate _ =>
    match b.phase with
    | .ready => b.next.2
    | .empty => b
  | .wipe => b.wipe

/-- The response a command gives. -/
def Block.answer (b : Block) : Instr → Response
  | .nop => ⟨false, 0x00⟩
  | .loadkey _ => ⟨false, 0x00⟩
  | .xlate din =>
    match b.phase with
    | .ready => ⟨false, din ^^^ b.next.1⟩
    | .empty => ⟨true, 0x00⟩
  | .wipe => ⟨false, 0x00⟩

section oneCommand
variable (b : Block)
@[simp] theorem Block.after_nop : b.after .nop = b := rfl
@[simp] theorem Block.after_loadkey (key : KeyWord) : b.after (.loadkey key) = b.loadkey key := by simp only [Block.after]
@[simp] theorem Block.after_wipe : b.after .wipe = b.wipe := by simp only [Block.after]
@[simp] theorem Block.answer_nop : b.answer .nop = ⟨false, 0x00⟩ := rfl
@[simp] theorem Block.answer_loadkey (key : KeyWord) : b.answer (.loadkey key) = ⟨false, 0x00⟩ := rfl
@[simp] theorem Block.answer_wipe : b.answer .wipe = ⟨false, 0x00⟩ := rfl

variable {b} (din : Byte)
theorem Block.after_xlate_ready (h : b.phase = .ready) : b.after (.xlate din) = b.next.2 := by rw [Block.after, h]
theorem Block.after_xlate_empty (h : b.phase = .empty) : b.after (.xlate din) = b := by rw [Block.after, h]
theorem Block.answer_xlate_ready (h : b.phase = .ready) : b.answer (.xlate din) = ⟨false, din ^^^ b.next.1⟩ := by
  rw [Block.answer, h]
theorem Block.answer_xlate_empty (h : b.phase = .empty) : b.answer (.xlate din) = ⟨true, 0x00⟩ := by
  rw [Block.answer, h]
end oneCommand

/-- The machine after a transaction: the record of a `NotKeyed` (log 2) is kept, and set by a response with `ERR`. -/
def State.afterTransaction (s : State) (i : Instr) : State :=
  { s with
    block := s.block.after i
    response := none
    notKeyedSeen := s.notKeyedSeen || (s.block.answer i).err }

@[simp] theorem State.afterTransaction_block (s : State) (i : Instr) :
    (s.afterTransaction i).block = s.block.after i := rfl

/-- A transaction does not look at a response still pending (log 17). -/
@[simp] theorem State.deliver_afterTransaction (s : State) (i : Instr) :
    s.deliver.afterTransaction i = s.afterTransaction i := rfl

/-- A `NOP` changes nothing but a response still pending. -/
@[simp] theorem State.afterTransaction_nop (s : State) : s.afterTransaction .nop = s.deliver := by
  simp [State.afterTransaction, State.deliver]

/-- The one outcome of every command, in every state. -/
theorem exec_eq (i : Instr) (s : State) :
    exec i s = .next { s.afterTransaction i with response := some (s.block.answer i) } := by
  cases i with
  | nop => simp [exec_nop, State.respond, State.afterTransaction]
  | loadkey key => simp [exec_loadkey, State.respond, State.afterTransaction]
  | wipe => simp [exec_wipe, State.respond, State.afterTransaction]
  | xlate din =>
    cases hphase : s.block.phase with
    | ready =>
      simp [exec_xlate_ready din hphase, State.respond, State.afterTransaction, Block.after_xlate_ready din hphase,
        Block.answer_xlate_ready din hphase]
    | empty =>
      simp [exec_xlate_empty din hphase, State.raiseNotKeyed, State.respond, State.afterTransaction,
        Block.after_xlate_empty din hphase, Block.answer_xlate_empty din hphase]

/-- Every transaction succeeds. -/
theorem State.transact_eq (s : State) (i : Instr) :
    s.transact i = some (s.afterTransaction i, s.block.answer i) := by
  rw [State.transact, exec_eq]
  rfl

/-- The block after a sequence of commands. -/
def Block.afterAll (b : Block) (cs : List Instr) : Block := cs.foldl Block.after b

/-- The responses to a sequence of commands, one each. -/
def Block.answers : Block → List Instr → List Response
  | _, [] => []
  | b, i :: is => b.answer i :: (b.after i).answers is

/-- The machine after a sequence of transactions. -/
def State.afterAll (s : State) (cs : List Instr) : State := cs.foldl State.afterTransaction s

@[simp] theorem Block.afterAll_nil (b : Block) : b.afterAll [] = b := rfl

@[simp] theorem Block.afterAll_cons (b : Block) (i : Instr) (cs : List Instr) :
    b.afterAll (i :: cs) = (b.after i).afterAll cs := List.foldl_cons ..

@[simp] theorem Block.answers_nil (b : Block) : b.answers [] = [] := rfl

@[simp] theorem Block.answers_cons (b : Block) (i : Instr) (cs : List Instr) :
    b.answers (i :: cs) = b.answer i :: (b.after i).answers cs := by rw [Block.answers]

theorem Block.answers_append (b : Block) (cs ds : List Instr) :
    b.answers (cs ++ ds) = b.answers cs ++ (b.afterAll cs).answers ds := by
  induction cs generalizing b with
  | nil => rfl
  | cons i cs ih => simp [ih]

@[simp] theorem State.afterAll_nil (s : State) : s.afterAll [] = s := rfl

@[simp] theorem State.afterAll_cons (s : State) (i : Instr) (cs : List Instr) :
    s.afterAll (i :: cs) = (s.afterTransaction i).afterAll cs := List.foldl_cons ..

theorem State.afterAll_append (s : State) (cs ds : List Instr) :
    s.afterAll (cs ++ ds) = (s.afterAll cs).afterAll ds := List.foldl_append ..

@[simp] theorem State.afterAll_block (s : State) (cs : List Instr) : (s.afterAll cs).block = s.block.afterAll cs := by
  induction cs generalizing s with
  | nil => rfl
  | cons i cs ih => simp [ih]

/-- Every run of commands succeeds, and its responses and final block depend on the block alone. -/
theorem runCommands_eq (cs : List Instr) (s : State) :
    runCommands cs s = some (s.afterAll cs, s.block.answers cs) := by
  induction cs generalizing s with
  | nil => rfl
  | cons i cs ih => simp [runCommands, State.transact_eq, ih]

@[simp] theorem translateCommands_nil : translateCommands [] = [] := rfl

@[simp] theorem translateCommands_cons (din : Byte) (input : List Byte) :
    translateCommands (din :: input) = .xlate din :: translateCommands input := rfl

theorem translateCommands_append (xs ys : List Byte) :
    translateCommands (xs ++ ys) = translateCommands xs ++ translateCommands ys := List.map_append

theorem translateBuffer_eq (input : List Byte) (s : State) :
    translateBuffer input s =
      some (s.afterAll (translateCommands input), (s.block.answers (translateCommands input)).map Response.data) := by
  simp [translateBuffer, runCommands_eq]

end Sys2Proof.Machine
end

section
/-! Properties of runs of commands (44_properties.md R110 to R117). -/

namespace Sys2Proof.Machine

/-- What every command keeps holds of the block after any run that it held before. -/
theorem Block.afterAll_induction {P : Block → Prop} (hstep : ∀ b i, P b → P (b.after i)) {b : Block} (hb : P b)
    (cs : List Instr) : P (b.afterAll cs) := by
  induction cs generalizing b with
  | nil => exact hb
  | cons i cs ih =>
    rw [Block.afterAll_cons]
    exact ih (hstep b i hb)

/-- Each command keeps the permutation property of `READY` (10_state.md R15): `LOADKEY` makes a permutation of whatever
it finds, `XLATE` in `READY` makes one `NEXT()`, and `WIPE` leaves `EMPTY`. -/
theorem Block.after_isPermutation_of_ready (b : Block) (i : Instr) (h : b.phase = .ready → b.IsPermutation) :
    (b.after i).phase = .ready → (b.after i).IsPermutation := by
  cases i with
  | nop => exact h
  | loadkey key =>
    rw [Block.after_loadkey]
    exact fun _ => Block.loadkey_isPermutation b key
  | xlate din =>
    cases hphase : b.phase with
    | ready =>
      rw [Block.after_xlate_ready din hphase]
      exact fun _ => Block.next_isPermutation (h hphase)
    | empty =>
      rw [Block.after_xlate_empty din hphase]
      exact h
  | wipe =>
    rw [Block.after_wipe, Block.wipe_phase]
    exact nofun

/-- Settles O14: the reset block is `EMPTY`, and every command of the run keeps the property. -/
theorem runsKeepPermutation : Obligations.RunsKeepPermutation := by
  unfold Obligations.RunsKeepPermutation
  intro cs t rs hrun
  rw [runCommands_eq] at hrun
  obtain ⟨rfl, -⟩ := Prod.mk.inj (Option.some.inj hrun)
  have hreset : Block.reset.phase = .ready → Block.reset.IsPermutation := nofun
  rw [State.afterAll_block, State.reset_block]
  exact Block.afterAll_induction Block.after_isPermutation_of_ready hreset cs

/-- A response pending at the start matters to no run, but that a run of no commands leaves it pending. -/
theorem State.deliver_afterAll_deliver (s : State) (cs : List Instr) :
    (s.deliver.afterAll cs).deliver = (s.afterAll cs).deliver := by
  cases cs with
  | nil => rfl
  | cons i cs => rw [State.afterAll_cons, State.afterAll_cons, State.deliver_afterTransaction]

/-- Without its `NOP`s a run leaves the same machine, up to a response pending. -/
theorem State.deliver_afterAll_filter_nop (s : State) (cs : List Instr) :
    (s.afterAll (cs.filter fun i => i ≠ .nop)).deliver = (s.afterAll cs).deliver := by
  induction cs generalizing s with
  | nil => rfl
  | cons i cs ih =>
    by_cases hnop : i = .nop
    · subst hnop
      simpa [State.deliver_afterAll_deliver] using ih s
    · simpa [hnop] using ih (s.afterTransaction i)

/-- Without the `NOP`s, the responses are those the other commands had among them. -/
theorem Block.answers_filter_nop (b : Block) (cs : List Instr) :
    b.answers (cs.filter fun i => i ≠ .nop) = ((cs.zip (b.answers cs)).filter fun p => p.1 ≠ .nop).map Prod.snd := by
  induction cs generalizing b with
  | nil => rfl
  | cons i cs ih =>
    by_cases hnop : i = .nop
    · subst hnop
      simpa using ih b
    · simpa [hnop] using ih (b.after i)

/-- Settles O16: what is left of the responses is that of the other commands, and the machine is the same. -/
theorem nopsChangeNothing : Obligations.NopsChangeNothing := by
  unfold Obligations.NopsChangeNothing
  intro cs s t rs hrun
  rw [runCommands_eq] at hrun
  obtain ⟨rfl, rfl⟩ := Prod.mk.inj (Option.some.inj hrun)
  have hstate := State.deliver_afterAll_filter_nop s cs
  have hblock := congrArg State.block hstate
  have hseen := congrArg State.notKeyedSeen hstate
  rw [State.deliver_block, State.deliver_block] at hblock
  rw [State.deliver_notKeyedSeen, State.deliver_notKeyedSeen] at hseen
  refine ⟨s.afterAll (cs.filter fun i => i ≠ .nop), ?_, hblock, hseen⟩
  rw [runCommands_eq, Block.answers_filter_nop]

/-- Settles O36: a translation is a run of commands, and the run of a concatenation is the two runs one after the other. -/
theorem translateInChunks : Obligations.TranslateInChunks := by
  unfold Obligations.TranslateInChunks
  refine ⟨fun s => translateBuffer_eq [] s, fun xs ys s => ⟨s.afterAll (translateCommands xs), _, _, _,
    translateBuffer_eq xs s, translateBuffer_eq ys _, ?_⟩⟩
  rw [translateBuffer_eq, translateCommands_append, State.afterAll_append, Block.answers_append, List.map_append,
    State.afterAll_block]

/-- A translation in `READY` is one `NEXT()` per byte, whatever the bytes. -/
theorem Block.afterAll_translate_ready {b : Block} (h : b.phase = .ready) (input : List Byte) :
    b.afterAll (translateCommands input) = Block.advance input.length b := by
  induction input generalizing b with
  | nil => rfl
  | cons din input ih =>
    have hnext : b.next.2.phase = .ready := by rw [Block.next_phase, h]
    rw [translateCommands_cons, Block.afterAll_cons, Block.after_xlate_ready din h, ih hnext, List.length_cons,
      Block.advance_succ]

/-- A translation in `EMPTY` changes nothing. -/
theorem Block.afterAll_translate_empty {b : Block} (h : b.phase = .empty) (input : List Byte) :
    b.afterAll (translateCommands input) = b := by
  induction input with
  | nil => rfl
  | cons din input ih =>
    rw [translateCommands_cons, Block.afterAll_cons, Block.after_xlate_empty din h, ih]

/-- Settles O39: in each phase, the block after a translation written without the bytes. -/
theorem keystreamIndependentOfData : Obligations.KeystreamIndependentOfData := by
  unfold Obligations.KeystreamIndependentOfData
  intro xs ys s hlength
  refine ⟨_, _, _, _, translateBuffer_eq xs s, translateBuffer_eq ys s, ?_⟩
  rw [State.afterAll_block, State.afterAll_block]
  cases hphase : s.block.phase with
  | ready => rw [Block.afterAll_translate_ready hphase, Block.afterAll_translate_ready hphase, hlength]
  | empty => rw [Block.afterAll_translate_empty hphase, Block.afterAll_translate_empty hphase]

/-- Two machines that answer a first command alike and hold the same block after it answer everything after it alike. -/
theorem runCommands_agree_of_first {i : Instr} {s s' : State} (hanswer : s.block.answer i = s'.block.answer i)
    (hafter : s.block.after i = s'.block.after i) (cs : List Instr) :
    ∃ t t' rs, runCommands (i :: cs) s = some (t, rs) ∧ runCommands (i :: cs) s' = some (t', rs) ∧
      t.block = t'.block := by
  have hanswers : s.block.answers (i :: cs) = s'.block.answers (i :: cs) := by
    rw [Block.answers_cons, Block.answers_cons, hanswer, hafter]
  refine ⟨_, _, _, runCommands_eq (i :: cs) s, hanswers ▸ runCommands_eq (i :: cs) s', ?_⟩
  rw [State.afterAll_block, State.afterAll_block, Block.afterAll_cons, Block.afterAll_cons, hafter]

/-- Settles O40: `LOADKEY key` answers every block alike and leaves of each the same one (40_construction.md R77). -/
theorem sameKeySameResponses : Obligations.SameKeySameResponses := by
  unfold Obligations.SameKeySameResponses
  intro key cs s s'
  have hanswer : s.block.answer (.loadkey key) = s'.block.answer (.loadkey key) := by
    rw [Block.answer_loadkey, Block.answer_loadkey]
  have hafter : s.block.after (.loadkey key) = s'.block.after (.loadkey key) := by
    rw [Block.after_loadkey, Block.after_loadkey]
    exact Block.loadkey_eq_loadkey s.block s'.block key
  exact runCommands_agree_of_first hanswer hafter cs

/-- What is marked with one of two instances: the commands sent to it, or the responses it gave. -/
def markedFor {α : Type} (x : Bool) (l : List (Bool × α)) : List α := (l.filter fun p => p.1 = x).map Prod.snd

@[simp] theorem markedFor_nil {α : Type} (x : Bool) : markedFor x ([] : List (Bool × α)) = [] := rfl

theorem markedFor_cons {α : Type} (x y : Bool) (a : α) (l : List (Bool × α)) :
    markedFor x ((y, a) :: l) = if y = x then a :: markedFor x l else markedFor x l := by
  by_cases h : y = x <;> simp [markedFor, h]

/-- The two instances together are the two apart: each ends in the state, and gives the responses, of its own commands. -/
theorem runPair_eq (cs : List (Bool × Instr)) (s t : State) :
    ∃ rs, runPair cs s t = some (s.afterAll (markedFor false cs), t.afterAll (markedFor true cs), rs) ∧
      markedFor false rs = s.block.answers (markedFor false cs) ∧
      markedFor true rs = t.block.answers (markedFor true cs) := by
  induction cs generalizing s t with
  | nil => exact ⟨[], rfl, rfl, rfl⟩
  | cons c cs ih =>
    obtain ⟨x, i⟩ := c
    cases x with
    | false =>
      obtain ⟨rs, hrun, hfalse, htrue⟩ := ih (s.afterTransaction i) t
      refine ⟨(false, s.block.answer i) :: rs, ?_, ?_, ?_⟩
      · simp [runPair, State.transact_eq, hrun, markedFor_cons]
      · simp [markedFor_cons, hfalse]
      · simp [markedFor_cons, htrue]
    | true =>
      obtain ⟨rs, hrun, hfalse, htrue⟩ := ih s (t.afterTransaction i)
      refine ⟨(true, t.block.answer i) :: rs, ?_, ?_, ?_⟩
      · simp [runPair, State.transact_eq, hrun, markedFor_cons]
      · simp [markedFor_cons, hfalse]
      · simp [markedFor_cons, htrue]

/-- Settles O51: the interleaved run beside the runs of the commands marked for each of the two alone. -/
theorem instancesDoNotInterfere : Obligations.InstancesDoNotInterfere := by
  unfold Obligations.InstancesDoNotInterfere
  intro cs s t
  obtain ⟨rs, hrun, hfalse, htrue⟩ := runPair_eq cs s t
  have hs := runCommands_eq (markedFor false cs) s
  have ht := runCommands_eq (markedFor true cs) t
  rw [← hfalse] at hs
  rw [← htrue] at ht
  exact ⟨_, _, rs, hrun, hs, ht⟩

end Sys2Proof.Machine
end

section
/-! Errors (60_exceptions.md R120): the one command and phase that raise `NotKeyed`, and what it leaves. -/

namespace Sys2Proof.Machine

/-- Of the commands only `XLATE` answers with `ERR`, and of its two phases only `EMPTY`. -/
theorem Block.answer_err_iff (b : Block) (i : Instr) :
    (b.answer i).err = true ↔ (∃ din, i = .xlate din) ∧ b.phase = .empty := by
  cases i with
  | nop => simp
  | loadkey key => simp
  | wipe => simp
  | xlate din =>
    cases hphase : b.phase with
    | ready => simp [Block.answer_xlate_ready din hphase]
    | empty => simp [Block.answer_xlate_empty din hphase]

/-- Settles O31: the response is the command's answer, and where that has `ERR` the command is an `XLATE` in `EMPTY`. -/
theorem errorOnlyFromXlateInEmpty : Obligations.ErrorOnlyFromXlateInEmpty := by
  unfold Obligations.ErrorOnlyFromXlateInEmpty
  intro i s t r hexec hresponse
  obtain rfl := Host.Outcome.next.inj ((exec_eq i s).symm.trans hexec)
  obtain rfl : s.block.answer i = r := Option.some.inj hresponse
  refine ⟨s.block.answer_err_iff i, fun herr => ?_⟩
  obtain ⟨⟨din, rfl⟩, hphase⟩ := (s.block.answer_err_iff i).mp herr
  have hanswer := Block.answer_xlate_empty din hphase
  exact ⟨hanswer, congrArg Response.word hanswer, Block.after_xlate_empty din hphase⟩

end Sys2Proof.Machine
end

section
/-! Reset and the lifecycle (70_reset_and_hazards.md R140, R144): one lemma for a row of the table, and the row each command
has in each phase. -/

namespace Sys2Proof.Machine

/-- A row of the lifecycle table is the block the command leaves and the answer it gives. -/
theorem exec_row {i : Instr} {s : State} {b : Block} {r : Response} (hblock : s.block.after i = b)
    (hresponse : s.block.answer i = r) : ∃ t, exec i s = .next t ∧ t.block = b ∧ t.response = some r :=
  ⟨_, exec_eq i s, hblock, congrArg some hresponse⟩

/-- The row of `LOADKEY`, the same in both phases: whatever the block held, it is keyed as one that held nothing
(40_construction.md R77). -/
theorem exec_loadkey_row (key : KeyWord) (s : State) :
    ∃ t, exec (.loadkey key) s = .next t ∧ t.block = keyedBlock key ∧ t.block.phase = .ready ∧
      t.block.keyBytes = keySplit key ∧ t.response = some ⟨false, 0x00⟩ := by
  have hkeyed : s.block.after (.loadkey key) = keyedBlock key := by
    rw [Block.after_loadkey, keyedBlock, Block.loadkey_eq_loadkey s.block Block.reset]
  obtain ⟨t, hexec, hblock, hresponse⟩ := exec_row hkeyed (Block.answer_loadkey s.block key)
  refine ⟨t, hexec, hblock, ?_, ?_, hresponse⟩
  · rw [hblock, keyedBlock, Block.loadkey_phase]
  · rw [hblock, keyedBlock, Block.loadkey_keyBytes]

theorem acceptedWord_of_rst {s : State} {e : Edge} {es : List Edge} (hedges : s.edges = e :: es) (hrst : e.rst = true) :
    s.acceptedWord = none := by
  simp [State.acceptedWord, hedges, State.cmdReady, hrst]

/-- Reset wins over everything else the host drives at the same clock edge (70_reset_and_hazards.md R141). -/
theorem step_of_rst {s : State} {e : Edge} {es : List Edge} (hedges : s.edges = e :: es) (hrst : e.rst = true) :
    step s = .next s.popEdge.applyReset := by
  rw [step_passed (acceptedWord_of_rst hedges hrst), State.passEdge, hedges]
  exact congrArg Host.Outcome.next (if_pos hrst)

/-- Settles O49: the rows of `EMPTY`, those of `READY`, and reset. Only the rows of `EMPTY` need the invariant: what they
leave unchanged is the reset block, and so `WIPE` leaves it unchanged as well. -/
theorem lifecycleTable : Obligations.LifecycleTable := by
  unfold Obligations.LifecycleTable
  intro s hinv
  refine ⟨fun hempty => ?empty, fun hready => ?ready, fun e es hedges hrst => ?reset⟩
  case empty =>
    have hreset : s.block = Block.reset := hinv.emptyIsReset hempty
    have hwipe : s.block.after .wipe = s.block := by rw [Block.after_wipe, Block.wipe_eq_reset, hreset]
    exact ⟨hreset,
      exec_row s.block.after_nop s.block.answer_nop,
      fun key => exec_loadkey_row key s,
      fun din => exec_row (Block.after_xlate_empty din hempty) (Block.answer_xlate_empty din hempty),
      exec_row hwipe s.block.answer_wipe⟩
  case ready =>
    have hwipe : s.block.after .wipe = Block.reset := by rw [Block.after_wipe, Block.wipe_eq_reset]
    refine ⟨exec_row s.block.after_nop s.block.answer_nop, fun key => exec_loadkey_row key s, fun din => ?_,
      exec_row hwipe s.block.answer_wipe⟩
    obtain ⟨t, hexec, hblock, hresponse⟩ :=
      exec_row (Block.after_xlate_ready din hready) (Block.answer_xlate_ready din hready)
    refine ⟨t, hexec, hblock, ?_, ?_, hresponse⟩
    · rw [hblock, Block.next_phase, hready]
    · rw [hblock, Block.next_keyBytes]
  case reset =>
    exact ⟨s.popEdge.applyReset, step_of_rst hedges hrst, State.applyReset_block _, State.applyReset_response _⟩

end Sys2Proof.Machine
end

section
/-! Decoder and encoder against each other, the table's words and its rows (30_encoding.md section 2). -/

namespace Sys2Proof

/-- The decoder reads the operation code and the operand the encoder wrote. -/
@[simp] theorem decode_encode (i : Instr) : decode (encode i) = i := by
  cases i with
  | nop => exact decode_of_op00 Laws.OpcodeField.nop
  | loadkey key => rw [decode_of_op01 (Laws.OpcodeField.loadkey key), encode, argField_fields]
  | xlate din => rw [decode_of_op10 (Laws.OpcodeField.xlate din), encode, dinField_fields]
  | wipe => exact decode_of_op11 Laws.OpcodeField.wipe

theorem canonicalWord_encode (i : Instr) : canonicalWord (encode i) = true := by
  rw [canonicalWord_iff_encode_decode, decode_encode]

/-- A command word keeps its value in the 72 bits of the table (log 9). -/
theorem toNat_mod_two_pow_72 (w : CommandWord) : w.toNat % 2 ^ 72 = w.toNat :=
  Nat.mod_eq_of_lt (Nat.lt_trans w.isLt (by decide))

theorem decodeNumber_toNat (w : CommandWord) : decodeNumber w.toNat = .ok (decode w) := by
  rw [decodeNumber, if_pos w.isLt, BitVec.ofNat_toNat, BitVec.setWidth_eq]

theorem decodeTableWord_toNat (w : CommandWord) : decodeTableWord 72 w.toNat = some (decode w) := by
  rw [decodeTableWord, toNat_mod_two_pow_72, decodeNumber_toNat]

/-- Settles O5: the round trip command by command; the canonical form and the table word follow from it. -/
theorem decodeEncodeRoundTrip : Obligations.DecodeEncodeRoundTrip := by
  unfold Obligations.DecodeEncodeRoundTrip
  refine fun i _ => ⟨decode_encode i, canonicalWord_encode i, ?_⟩
  rw [decodeTableWord_toNat, decode_encode]

/-- The row of the encoding table for one value of `OP`: the mask keeps the bits of `OP`. -/
def rowOf (mnemonic : String) (op : BitVec 2) : OpcodeRow := ⟨mnemonic, op ++ 0#64, 0b11#2 ++ 0#64⟩

theorem opcodeTable_eq_rows :
    opcodeTable = [rowOf "NOP" 0b00#2, rowOf "LOADKEY" 0b01#2, rowOf "XLATE" 0b10#2, rowOf "WIPE" 0b11#2] := by
  decide

/-- The mask of the table clears `ARG` and leaves `OP`. -/
theorem and_mask (w : CommandWord) : w &&& (0b11#2 ++ 0#64) = opField w ++ 0#64 := by
  have hop : opField w &&& 0b11#2 = opField w := BitVec.and_allOnes
  calc w &&& (0b11#2 ++ 0#64) = (opField w ++ argField w) &&& (0b11#2 ++ 0#64) := by rw [fields_eq]
    _ = (opField w &&& 0b11#2) ++ (argField w &&& 0#64) := BitVec.and_append
    _ = opField w ++ 0#64 := by rw [hop, BitVec.and_zero]

theorem rowOf_mnemonic (mnemonic : String) (op : BitVec 2) : (rowOf mnemonic op).mnemonic = mnemonic := rfl

theorem rowOf_hits (mnemonic : String) (op : BitVec 2) (w : CommandWord) :
    (rowOf mnemonic op).hits w = decide (opField w = op) := by
  rw [OpcodeRow.hits, rowOf, and_mask, Bool.beq_eq_decide_eq]
  exact decide_eq_decide.mpr (BitVec.append_left_inj 0#64)

/-- Settles O4, by cases on `OP`: of the four rows, which differ in `OP`, the word hits the one with its own. -/
theorem tableRowsDecideTheCommand : Obligations.TableRowsDecideTheCommand := by
  unfold Obligations.TableRowsDecideTheCommand
  intro w
  rw [opcodeTable_eq_rows]
  rcases opField_cases w with h | h | h | h
  · simp [rowOf_hits, h, decode_of_op00 h, rowOf_mnemonic, Instr.mnemonic]
  · simp [rowOf_hits, h, decode_of_op01 h, rowOf_mnemonic, Instr.mnemonic]
  · simp [rowOf_hits, h, decode_of_op10 h, rowOf_mnemonic, Instr.mnemonic]
  · simp [rowOf_hits, h, decode_of_op11 h, rowOf_mnemonic, Instr.mnemonic]

/-- Settles O1: the value of `OP` of each word, and its operand as that word's low bits. -/
theorem decodeSampleWords : Obligations.DecodeSampleWords := by
  unfold Obligations.DecodeSampleWords
  exact ⟨decode_of_op00 rfl, decode_of_op01 rfl, decode_of_op10 rfl, decode_of_op10 rfl, decode_of_op11 rfl⟩

end Sys2Proof
end

section
/-! What a step leaves of the block, the response and the record (30_encoding.md R51), said once for every step. -/

namespace Sys2Proof.Machine

/-- Everything a step can leave: what an accepted command makes of the block, the reset block at an edge with `rst`, or
the block as it was, with a pending response kept or delivered. -/
theorem step_effect {s t : State} (h : step s = .next t) :
    (∃ w, s.acceptedWord = some w ∧ t.block = s.block.after (decode w) ∧
      t.response = some (s.block.answer (decode w)) ∧
      t.notKeyedSeen = (s.notKeyedSeen || (s.block.answer (decode w)).err)) ∨
    (s.acceptedWord = none ∧ (∃ e es, s.edges = e :: es ∧ e.rst = true) ∧ t.block = Block.reset ∧ t.response = none ∧
      t.notKeyedSeen = s.notKeyedSeen) ∨
    (s.acceptedWord = none ∧ t.block = s.block ∧ (t.response = s.response ∨ t.response = none) ∧
      t.notKeyedSeen = s.notKeyedSeen) := by
  rcases step_cases h with ⟨w, hw, hexec⟩ | ⟨hnone, rfl⟩
  · obtain rfl := Host.Outcome.next.inj ((exec_eq _ _).symm.trans hexec)
    exact .inl ⟨w, hw, rfl, rfl, rfl⟩
  · rcases passEdge_cases s with ⟨-, hpass⟩ | ⟨e, es, hedges, hrst, hpass⟩ | ⟨e, es, -, -, -, hpass⟩ |
      ⟨e, es, -, -, -, hpass⟩
    · exact .inr (.inr ⟨hnone, by simp [hpass]⟩)
    · exact .inr (.inl ⟨hnone, ⟨e, es, hedges, hrst⟩, by simp [hpass]⟩)
    · exact .inr (.inr ⟨hnone, by simp [hpass]⟩)
    · exact .inr (.inr ⟨hnone, by simp [hpass]⟩)

/-- Every step has a next state: no command faults or is refused. -/
theorem exists_step_next (s : State) : ∃ t, step s = .next t := by
  cases hw : s.acceptedWord with
  | none => exact ⟨_, step_passed hw⟩
  | some w => exact ⟨_, (step_accepted hw).trans (exec_eq _ _)⟩

/-- What every command keeps of the block, and the reset block has, every step keeps. -/
theorem step_block_induction {P : Block → Prop} (hreset : P Block.reset) (hafter : ∀ b i, P b → P (b.after i))
    {s t : State} (h : step s = .next t) (hs : P s.block) : P t.block := by
  rcases step_effect h with ⟨w, -, hblock, -⟩ | ⟨-, -, hblock, -⟩ | ⟨-, hblock, -⟩
  · rw [hblock]
    exact hafter _ _ hs
  · rwa [hblock]
  · rwa [hblock]

end Sys2Proof.Machine
end

section
/-! The invariants (10_state.md R15, R19; 40_construction.md R77): that commands keep them, and that reset has them. -/

namespace Sys2Proof.Machine

/-- Every command keeps the canonical form of the array (log 1). -/
theorem Block.after_wf {b : Block} (i : Instr) (h : b.perm.wf) : (b.after i).perm.wf := by
  cases i with
  | nop => exact h
  | loadkey key =>
    rw [Block.after_loadkey]
    exact Block.loadkey_wf b key
  | xlate din =>
    cases hphase : b.phase with
    | ready =>
      rw [Block.after_xlate_ready din hphase]
      exact Block.next_wf h
    | empty => rwa [Block.after_xlate_empty din hphase]
  | wipe =>
    rw [Block.after_wipe]
    exact Block.wipe_wf b

/-- Every command keeps the zeros of `EMPTY`: only `WIPE` enters that phase, and no command writes the block there and
leaves it in `EMPTY` with anything else. -/
theorem Block.after_eq_reset_of_empty (b : Block) (i : Instr) (h : b.phase = .empty → b = Block.reset) :
    (b.after i).phase = .empty → b.after i = Block.reset := by
  cases i with
  | nop => exact h
  | loadkey key =>
    rw [Block.after_loadkey, Block.loadkey_phase]
    exact nofun
  | xlate din =>
    cases hphase : b.phase with
    | ready =>
      rw [Block.after_xlate_ready din hphase, Block.next_phase, hphase]
      exact nofun
    | empty =>
      rw [Block.after_xlate_empty din hphase]
      exact h
  | wipe =>
    rw [Block.after_wipe]
    exact fun _ => b.wipe_eq_reset

/-- A response with `ERR` is `(1, 0x00)`, given in `EMPTY`, and its command changed nothing. -/
theorem Block.of_answer_err {b : Block} {i : Instr} (h : (b.answer i).err = true) :
    b.answer i = ⟨true, 0x00⟩ ∧ b.phase = .empty ∧ b.after i = b := by
  obtain ⟨⟨din, rfl⟩, hphase⟩ := (b.answer_err_iff i).mp h
  exact ⟨Block.answer_xlate_empty din hphase, hphase, Block.after_xlate_empty din hphase⟩

/-- A response with `ERR` that a step leaves pending was raised by that step or was pending before it, with nothing
changed since. -/
theorem step_keeps_errorIsNotKeyed {s t : State} (hinv : s.Inv) (h : step s = .next t) {r : Response}
    (hr : t.response = some r) (herr : r.err = true) :
    r.data = 0x00 ∧ t.block.phase = .empty ∧ t.notKeyedSeen = true := by
  rcases step_effect h with ⟨w, -, hblock, hresponse, hseen⟩ | ⟨-, -, -, hnone, -⟩ | ⟨-, hblock, hkept | hnone, hseen⟩
  · obtain rfl := Option.some.inj (hresponse.symm.trans hr)
    obtain ⟨hanswer, hphase, hafter⟩ := Block.of_answer_err herr
    refine ⟨by rw [hanswer], by rw [hblock, hafter, hphase], ?_⟩
    rw [hseen, herr, Bool.or_true]
  · exact absurd (hnone.symm.trans hr) nofun
  · rw [hblock, hseen]
    exact hinv.errorIsNotKeyed r (hkept ▸ hr) herr
  · exact absurd (hnone.symm.trans hr) nofun

/-- Settles O12, clause by clause: the three on the block hold of the reset block and are kept by every command. -/
theorem stepKeepsInvariant : Obligations.StepKeepsInvariant := by
  unfold Obligations.StepKeepsInvariant
  intro s t hinv hstep
  exact {
    arrayCanonical :=
      step_block_induction (P := fun b => b.perm.wf) Memory.wf_reset (fun _ i => Block.after_wf i) hstep
        hinv.arrayCanonical
    readyIsPermutation :=
      step_block_induction (P := fun b => b.phase = .ready → b.IsPermutation) nofun
        Block.after_isPermutation_of_ready hstep hinv.readyIsPermutation
    emptyIsReset :=
      step_block_induction (P := fun b => b.phase = .empty → b = Block.reset) (fun _ => rfl)
        Block.after_eq_reset_of_empty hstep hinv.emptyIsReset
    errorIsNotKeyed := fun _ => step_keeps_errorIsNotKeyed hinv hstep }

theorem Block.after_loadkey_eq_keyedBlock (b : Block) (key : KeyWord) : b.after (.loadkey key) = keyedBlock key := by
  rw [Block.after_loadkey, keyedBlock, Block.loadkey_eq_loadkey b Block.reset]

@[simp] theorem keyedBlock_phase (key : KeyWord) : (keyedBlock key).phase = .ready := by
  rw [keyedBlock, Block.loadkey_phase]

/-- What `State.IsKeystreamPosition` says of the block. -/
def Block.IsKeystreamPosition (b : Block) : Prop :=
  b.phase = .ready → ∃ key n, b = Block.advance n (keyedBlock key)

theorem State.isKeystreamPosition_iff (s : State) : s.IsKeystreamPosition ↔ s.block.IsKeystreamPosition := Iff.rfl

theorem Block.reset_isKeystreamPosition : Block.reset.IsKeystreamPosition := nofun

/-- `LOADKEY` starts at position 0 of its key's keystream, and `XLATE` goes one position on. -/
theorem Block.after_isKeystreamPosition (b : Block) (i : Instr) (h : b.IsKeystreamPosition) :
    (b.after i).IsKeystreamPosition := by
  cases i with
  | nop => exact h
  | loadkey key => exact fun _ => ⟨key, 0, b.after_loadkey_eq_keyedBlock key⟩
  | xlate din =>
    cases hphase : b.phase with
    | ready =>
      obtain ⟨key, n, hb⟩ := h hphase
      rw [Block.after_xlate_ready din hphase]
      exact fun _ => ⟨key, n + 1, by rw [Block.advance_succ_last, ← hb]⟩
    | empty => rwa [Block.after_xlate_empty din hphase]
  | wipe =>
    rw [Block.after_wipe, Block.wipe_eq_reset]
    exact Block.reset_isKeystreamPosition

/-- Settles O13: the reset block is `EMPTY`, and every command keeps the property. -/
theorem stepKeepsKeystreamPosition : Obligations.StepKeepsKeystreamPosition := by
  unfold Obligations.StepKeepsKeystreamPosition
  intro s t hs hstep
  rw [State.isKeystreamPosition_iff] at hs ⊢
  exact step_block_induction Block.reset_isKeystreamPosition Block.after_isKeystreamPosition hstep hs

theorem State.reset_inv : State.reset.Inv where
  arrayCanonical := Memory.wf_reset
  readyIsPermutation := nofun
  emptyIsReset := fun _ => State.reset_block
  errorIsNotKeyed := nofun

/-- Settles O11: nothing is asked of the reset state but that it is empty, zero and without a response. -/
theorem resetMeetsInvariant : Obligations.ResetMeetsInvariant := by
  unfold Obligations.ResetMeetsInvariant
  exact ⟨State.reset_inv, Block.reset_isKeystreamPosition⟩

end Sys2Proof.Machine
end

section
/-! Corner cases of `NEXT()` (41_byte_generation.md R82, R84), the count of its steps, and the frame of `XLATE`
(42_translation.md R90, R95). -/

namespace Sys2Proof.Machine

/-- The index `i` wraps from 0xFF to 0x00. -/
theorem Block.next_indexI_of_last {b : Block} (h : b.indexI = 0xFF) : b.next.2.indexI = 0x00 := by
  rw [Block.next_indexI, h]
  rfl

/-- 256 steps are one full turn of `i`. -/
theorem Block.advance_256_indexI (b : Block) : (Block.advance 256 b).indexI = b.indexI := by
  rw [Block.advance_indexI]
  exact BitVec.add_zero _

/-- Where `j` meets `i` an entry is exchanged with itself. -/
theorem Block.next_entry_of_meet {b : Block} (h : b.next.2.indexJ = b.next.2.indexI) (a : Byte) :
    b.next.2.entry a = b.entry a := by
  rw [Block.next_entry_eq_swap, h, Equiv.swap_self, Equiv.refl_apply]

/-- The selector sum does not see the swap of its two summands. -/
theorem Block.next_selector (b : Block) :
    b.next.2.entry b.next.2.indexI + b.next.2.entry b.next.2.indexJ =
      b.entry b.next.2.indexI + b.entry b.next.2.indexJ := by
  rw [Block.next_entry_indexI, Block.next_entry_indexJ, BitVec.add_comm]

/-- The byte, with the selector summed from the entries as they stand before the swap. -/
theorem Block.next_byte_eq (b : Block) :
    b.next.1 = b.next.2.entry (b.entry b.next.2.indexI + b.entry b.next.2.indexJ) := by
  rw [Block.next_byte, Block.next_selector]

/-- Settles O24: the wrap of `i`, the swap of an entry with itself, and the selector as the sum before the swap. -/
theorem nextCornerCases : Obligations.NextCornerCases := by
  unfold Obligations.NextCornerCases
  refine ⟨fun b => b.next_indexI_of_last, Block.advance_256_indexI, fun b hmeet => ⟨b.next_entry_of_meet hmeet, ?_⟩,
    Block.next_selector, fun b ht => ?_, fun b ht => ?_⟩
  · rw [Block.next_byte_eq, Block.next_entry_of_meet hmeet, hmeet]
  · rw [Block.next_byte_eq, ht, Block.next_entry_indexI]
  · rw [Block.next_byte_eq, ht, Block.next_entry_indexJ]

theorem Block.advance_indexI_toNat (n : Nat) (b : Block) :
    (Block.advance n b).indexI.toNat = (b.indexI.toNat + n) % 256 := by
  rw [Block.advance_indexI, BitVec.toNat_add, BitVec.toNat_ofNat, Nat.add_mod_mod]

/-- Settles O26: the count of steps, and `i` = 0 at its start after `LOADKEY`. -/
theorem indexICountsSteps : Obligations.IndexICountsSteps := by
  unfold Obligations.IndexICountsSteps
  refine ⟨Block.advance_indexI_toNat, fun n b key => ?_⟩
  rw [Block.advance_indexI_toNat, Block.loadkey_indexI_zero, show (0x00 : Byte).toNat = 0 from rfl, Nat.zero_add]

/-- The array without a cell stays one under a swap: both entries read as unlisted (log 1). -/
theorem Memory.swap_nil (a b : Nat) : Memory.swap [] a b = [] := by
  simp [Memory.swap, Memory.write, Memory.erase]

theorem Block.next_perm_of_nil {b : Block} (h : b.perm = []) : b.next.2.perm = [] := by
  rw [Block.next_perm, h, Memory.swap_nil]

theorem Block.next_byte_of_nil {b : Block} (h : b.perm = []) : b.next.1 = 0x00 := by
  rw [Block.next_byte, Block.entry, Block.next_perm_of_nil h, Memory.read_nil, Memory.unlisted]

theorem Block.advance_perm_of_nil (n : Nat) {b : Block} (h : b.perm = []) : (Block.advance n b).perm = [] := by
  induction n generalizing b with
  | zero => exact h
  | succ n ih =>
    rw [Block.advance_succ]
    exact ih (Block.next_perm_of_nil h)

/-- Settles O27: every step finds the array without a cell, and leaves it so. -/
theorem nextOnZeroArrayReturnsZero : Obligations.NextOnZeroArrayReturnsZero := by
  unfold Obligations.NextOnZeroArrayReturnsZero
  intro n
  have hnil : (Block.advance n Block.reset).perm = [] := Block.advance_perm_of_nil n Block.reset_perm
  exact ⟨Block.next_byte_of_nil hnil, hnil⟩

/-- Settles O29: the one swap of `NEXT()`, read at the new `i`, at the new `j` and at any other address. -/
theorem xlateFrame : Obligations.XlateFrame := by
  unfold Obligations.XlateFrame
  rintro din s i j hready rfl rfl
  refine ⟨_, exec_xlate_ready din hready, Block.next_indexI s.block, Block.next_indexJ s.block, fun a hi hj => ?_, ?_, ?_,
    Block.next_keyBytes s.block, Block.next_phase s.block, rfl, rfl, rfl⟩
  · rw [State.respond_block, Block.next_perm, Block.next_indexI, Block.next_indexJ, Memory.read_swap, if_neg hj,
      if_neg hi]
  · rw [State.respond_block, Block.next_perm, Block.next_indexI, Block.next_indexJ, Memory.read_swap_left, if_pos rfl]
  · rw [State.respond_block, Block.next_perm, Block.next_indexI, Block.next_indexJ, Memory.read_swap, if_pos rfl]

/-- Settles O30: `NotKeyed` is raised over the state as it stands. -/
theorem xlateEmptyRaisesNotKeyed : Obligations.XlateEmptyRaisesNotKeyed := by
  unfold Obligations.XlateEmptyRaisesNotKeyed
  intro din s hempty
  have hexec := exec_xlate_empty din hempty
  refine ⟨by rw [hexec, State.raiseNotKeyed, State.respond], s.raiseNotKeyed, hexec, s.raiseNotKeyed_block, fun a => ?_⟩
  rw [State.raiseNotKeyed_block]

end Sys2Proof.Machine
end

section
/-! Runs from `READY` (42_translation.md R93 to R97, 44_properties.md R112, 70_reset_and_hazards.md R143, R147): the
keystream a translation takes, and the commands a session is made of. -/

namespace Sys2Proof.Machine

@[simp] theorem Block.answers_length (b : Block) (cs : List Instr) : (b.answers cs).length = cs.length := by
  induction cs generalizing b with
  | nil => rfl
  | cons i cs ih => rw [Block.answers_cons, List.length_cons, ih, List.length_cons]

theorem Block.afterAll_append (b : Block) (cs ds : List Instr) :
    b.afterAll (cs ++ ds) = (b.afterAll cs).afterAll ds := List.foldl_append ..

/-- A run sets the record when a response of it has `ERR` (log 2). -/
theorem State.afterAll_notKeyedSeen (s : State) (cs : List Instr) :
    (s.afterAll cs).notKeyedSeen = (s.notKeyedSeen || (s.block.answers cs).any Response.err) := by
  induction cs generalizing s with
  | nil => simp
  | cons i cs ih =>
    rw [State.afterAll_cons, ih, State.afterTransaction_block, Block.answers_cons, List.any_cons, ← Bool.or_assoc]
    rfl

/-- `XLATE`s and `NOP`s in `READY` go one keystream byte on for each `XLATE`. -/
theorem Block.afterAll_body_ready {b : Block} (h : b.phase = .ready) {body : List Instr}
    (hbody : ∀ i ∈ body, isBodyCommand i = true) : b.afterAll body = Block.advance (xlateCount body) b := by
  induction body generalizing b with
  | nil => rfl
  | cons i body ih =>
    obtain ⟨hi, hrest⟩ := List.forall_mem_cons.mp hbody
    cases i with
    | nop => rw [Block.afterAll_cons, Block.after_nop, ih h hrest, xlateCount]
    | xlate din =>
      have hnext : b.next.2.phase = .ready := by rw [Block.next_phase, h]
      rw [Block.afterAll_cons, Block.after_xlate_ready din h, ih hnext hrest, xlateCount, Block.advance_succ]
    | loadkey key => exact absurd hi nofun
    | wipe => exact absurd hi nofun

theorem Block.afterAll_body_phase {b : Block} (h : b.phase = .ready) {body : List Instr}
    (hbody : ∀ i ∈ body, isBodyCommand i = true) : (b.afterAll body).phase = .ready := by
  rw [Block.afterAll_body_ready h hbody, Block.advance_phase, h]

/-- No command but `XLATE` in `EMPTY` answers with `ERR`, and no body command leaves `READY`. -/
theorem Block.answers_body_err {b : Block} (h : b.phase = .ready) {body : List Instr}
    (hbody : ∀ i ∈ body, isBodyCommand i = true) : ∀ r ∈ b.answers body, r.err = false := by
  induction body generalizing b with
  | nil => exact nofun
  | cons i body ih =>
    obtain ⟨hi, hrest⟩ := List.forall_mem_cons.mp hbody
    have hanswer : (b.answer i).err = false := by simp [Bool.eq_false_iff, Block.answer_err_iff, h]
    have hafter : (b.after i).phase = .ready :=
      Block.afterAll_body_phase (body := [i]) h (List.forall_mem_singleton.mpr hi)
    rw [Block.answers_cons]
    exact List.forall_mem_cons.mpr ⟨hanswer, ih hafter hrest⟩

theorem isBodyCommand_of_mem_translateCommands (input : List Byte) :
    ∀ i ∈ translateCommands input, isBodyCommand i = true :=
  List.forall_mem_map.mpr fun _ _ => rfl

/-- The byte `NEXT()` returns after `n` steps of it. -/
def Block.keystream (b : Block) (n : Nat) : Byte := (Block.advance n b).next.1

@[simp] theorem Block.keystream_zero (b : Block) : b.keystream 0 = b.next.1 := by
  rw [Block.keystream, Block.advance_zero]

theorem Block.keystream_advance (m n : Nat) (b : Block) :
    (Block.advance m b).keystream n = b.keystream (m + n) := by
  rw [Block.keystream, Block.keystream, Block.advance_add]

theorem Block.next_keystream (n : Nat) (b : Block) : b.next.2.keystream n = b.keystream (n + 1) := by
  rw [Block.keystream, Block.keystream, Block.advance_succ]

theorem exposedByte_eq_keystream (key : KeyWord) (n : Nat) : exposedByte key n = (keyedBlock key).keystream n := by
  rw [exposedByte, Block.keystream]

/-- A sequence of data bytes XORed with consecutive keystream bytes of a block. -/
def Block.xorStream (b : Block) (input : List Byte) : List Byte := input.mapIdx fun k d => d ^^^ b.keystream k

theorem Block.xorStream_cons (b : Block) (d : Byte) (input : List Byte) :
    b.xorStream (d :: input) = (d ^^^ b.next.1) :: b.next.2.xorStream input := by
  simp only [Block.xorStream, List.mapIdx_cons, Block.keystream_zero, Block.next_keystream]

@[simp] theorem Block.xorStream_length (b : Block) (input : List Byte) : (b.xorStream input).length = input.length :=
  List.length_mapIdx

/-- XORed twice with the same bytes, the data are back. -/
theorem Block.xorStream_xorStream (b : Block) (input : List Byte) : b.xorStream (b.xorStream input) = input := by
  induction input generalizing b with
  | nil => rfl
  | cons d input ih =>
    rw [Block.xorStream_cons, Block.xorStream_cons, ih, BitVec.xor_assoc, BitVec.xor_self, BitVec.xor_zero]

/-- The keystream bytes cancel between two sequences, as far as the shorter one reaches. -/
theorem Block.zipWith_xorStream (b : Block) (xs ys : List Byte) :
    List.zipWith (· ^^^ ·) (b.xorStream xs) (b.xorStream ys) = List.zipWith (· ^^^ ·) xs ys := by
  have hcancel : ∀ x y k : Byte, (x ^^^ k) ^^^ (y ^^^ k) = x ^^^ y := fun x y k => by
    rw [BitVec.xor_comm y k, BitVec.xor_assoc, ← BitVec.xor_assoc k, BitVec.xor_self, BitVec.zero_xor]
  apply List.ext_getElem
  · simp
  · intro k _ _
    simp [Block.xorStream, hcancel]

/-- The response data of a translation in `READY`. -/
theorem Block.answers_translate_ready {b : Block} (h : b.phase = .ready) (input : List Byte) :
    (b.answers (translateCommands input)).map Response.data = b.xorStream input := by
  induction input generalizing b with
  | nil => rfl
  | cons d input ih =>
    have hnext : b.next.2.phase = .ready := by rw [Block.next_phase, h]
    rw [translateCommands_cons, Block.answers_cons, Block.answer_xlate_ready d h, Block.after_xlate_ready d h,
      List.map_cons, ih hnext, Block.xorStream_cons]

theorem translateBuffer_ready {s : State} (h : s.block.phase = .ready) (input : List Byte) :
    translateBuffer input s = some (s.afterAll (translateCommands input), s.block.xorStream input) := by
  rw [translateBuffer_eq, Block.answers_translate_ready h]

/-- Settles O35: the body leaves the keyed block as many keystream bytes on as it has `XLATE`s. -/
theorem translateUsesConsecutiveKeystream : Obligations.TranslateUsesConsecutiveKeystream := by
  unfold Obligations.TranslateUsesConsecutiveKeystream
  intro key body input s hbody
  obtain ⟨t, ht⟩ : ∃ t, t = s.afterAll (createCommands key ++ body) := ⟨_, rfl⟩
  have hblock : t.block = Block.advance (xlateCount body) (keyedBlock key) := by
    rw [ht, State.afterAll_block, createCommands, List.singleton_append, Block.afterAll_cons,
      Block.after_loadkey_eq_keyedBlock, Block.afterAll_body_ready (keyedBlock_phase key) hbody]
  have hready : t.block.phase = .ready := by rw [hblock, Block.advance_phase, keyedBlock_phase]
  refine ⟨t, t.afterAll (translateCommands input), _, ht ▸ runCommands_eq _ s, ?_⟩
  rw [translateBuffer_ready hready, hblock, Block.xorStream]
  simp only [Block.keystream_advance, exposedByte_eq_keystream]

/-- A translation right after `LOADKEY` starts at the first exposed keystream byte. -/
theorem transact_loadkey_translateBuffer (key : KeyWord) (s : State) (input : List Byte) :
    ∃ a b r, s.transact (.loadkey key) = some (a, r) ∧
      translateBuffer input a = some (b, (keyedBlock key).xorStream input) := by
  obtain ⟨a, ha⟩ : ∃ a, a = s.afterTransaction (.loadkey key) := ⟨_, rfl⟩
  have hblock : a.block = keyedBlock key := by
    rw [ha, State.afterTransaction_block, Block.after_loadkey_eq_keyedBlock]
  have hready : a.block.phase = .ready := by rw [hblock, keyedBlock_phase]
  refine ⟨a, a.afterAll (translateCommands input), s.block.answer (.loadkey key), ha ▸ s.transact_eq _, ?_⟩
  rw [translateBuffer_ready hready, hblock]

/-- Settles O41: both translations XOR with the same bytes. -/
theorem translationIsSelfInverse : Obligations.TranslationIsSelfInverse := by
  unfold Obligations.TranslationIsSelfInverse
  intro key data s s'
  obtain ⟨a, b, r, hload, htranslate⟩ := transact_loadkey_translateBuffer key s data
  obtain ⟨a', b', r', hload', htranslate'⟩ :=
    transact_loadkey_translateBuffer key s' ((keyedBlock key).xorStream data)
  rw [Block.xorStream_xorStream] at htranslate'
  exact ⟨a, b, _, a', b', r, r', hload, htranslate, hload', htranslate'⟩

/-- Settles O42: both translations XOR with the same bytes, which cancel. -/
theorem keyReuseExposesDifference : Obligations.KeyReuseExposesDifference := by
  unfold Obligations.KeyReuseExposesDifference
  intro key xs ys s s' _
  obtain ⟨a, b, r, hload, htranslate⟩ := transact_loadkey_translateBuffer key s xs
  obtain ⟨a', b', r', hload', htranslate'⟩ := transact_loadkey_translateBuffer key s' ys
  exact ⟨a, a', b, b', _, _, r, r', hload, htranslate, hload', htranslate', Block.zipWith_xorStream _ xs ys⟩

/-- The loop in place, begun after `done` has been overwritten: it puts the response data where the rest stood. -/
theorem translateInPlace_append (done rest : List Byte) (s : State) :
    translateInPlace rest.length done.length (done ++ rest) s =
      some (s.afterAll (translateCommands rest),
        done ++ (s.block.answers (translateCommands rest)).map Response.data) := by
  induction rest generalizing done s with
  | nil => rfl
  | cons d rest ih =>
    obtain ⟨x, hx⟩ : ∃ x, x = (s.block.answer (.xlate d)).data := ⟨_, rfl⟩
    have hread : (done ++ d :: rest)[done.length]? = some d := by simp
    have hwrite : (done ++ d :: rest).set done.length x = (done ++ [x]) ++ rest := by simp
    have hlength : done.length + 1 = (done ++ [x]).length := by simp
    rw [List.length_cons, translateInPlace, hread, Option.bind_some, State.transact_eq, Option.bind_some]
    dsimp only
    rw [← hx, hwrite, hlength, ih]
    simp [hx]

/-- Settles O37: the loop from position 0, with nothing overwritten yet. -/
theorem translateInPlaceAgrees : Obligations.TranslateInPlaceAgrees := by
  unfold Obligations.TranslateInPlaceAgrees
  intro buf s
  rw [translateBuffer_eq]
  exact translateInPlace_append [] buf s

/-- Settles O38: a first response without `ERR` shows `READY`, which no `XLATE` leaves. -/
theorem translationIsAllOrNothing : Obligations.TranslationIsAllOrNothing := by
  unfold Obligations.TranslationIsAllOrNothing
  intro d ds s t r htransact herr
  rw [State.transact_eq] at htransact
  obtain ⟨rfl, rfl⟩ := Prod.mk.inj (Option.some.inj htransact)
  have hready : s.block.phase = .ready := by
    cases hphase : s.block.phase with
    | ready => rfl
    | empty =>
      rw [Block.answer_xlate_empty d hphase] at herr
      exact absurd herr nofun
  have herrs := Block.answers_body_err hready (isBodyCommand_of_mem_translateCommands (d :: ds))
  rw [translateCommands_cons, Block.answers_cons] at herrs
  refine ⟨s.afterAll (translateCommands (d :: ds)), (s.block.after (.xlate d)).answers (translateCommands ds), ?_, ?_,
    (List.forall_mem_cons.mp herrs).2, ?_⟩
  · rw [runCommands_eq, translateCommands_cons, Block.answers_cons]
  · rw [Block.answers_length, translateCommands, List.length_map]
  · rw [State.afterAll_block]
    exact Block.afterAll_body_phase hready (isBodyCommand_of_mem_translateCommands (d :: ds))

theorem sessionCommands_eq (key : KeyWord) (body : List Instr) :
    sessionCommands key body = .loadkey key :: (body ++ [.wipe]) := rfl

/-- The block a session leaves. -/
theorem Block.afterAll_session (b : Block) (key : KeyWord) (body : List Instr) :
    b.afterAll (sessionCommands key body) = Block.reset := by
  rw [sessionCommands_eq, Block.afterAll_cons, Block.afterAll_append, Block.afterAll_cons, Block.afterAll_nil,
    Block.after_wipe, Block.wipe_eq_reset]

/-- Between `LOADKEY` and `WIPE` the block is `READY`, and those two never answer with `ERR`. -/
theorem Block.answers_session_err (b : Block) (key : KeyWord) {body : List Instr}
    (hbody : ∀ i ∈ body, isBodyCommand i = true) : ∀ r ∈ b.answers (sessionCommands key body), r.err = false := by
  rw [sessionCommands_eq, Block.answers_cons, Block.after_loadkey_eq_keyedBlock, Block.answers_append,
    Block.answers_cons, Block.answers_nil, Block.answer_loadkey, Block.answer_wipe]
  refine List.forall_mem_cons.mpr ⟨rfl, List.forall_mem_append.mpr ⟨?_, List.forall_mem_singleton.mpr rfl⟩⟩
  exact Block.answers_body_err (keyedBlock_phase key) hbody

/-- Settles O50: the responses of the three parts of a session, and the block after its `WIPE`. -/
theorem sessionEndsClean : Obligations.SessionEndsClean := by
  unfold Obligations.SessionEndsClean
  intro key body s hbody
  have herr := s.block.answers_session_err key hbody
  refine ⟨_, _, runCommands_eq _ s, ?_, herr, ?_, ?_⟩
  · rw [Block.answers_length, sessionCommands_eq, List.length_cons, List.length_append, List.length_singleton]
  · rw [State.afterAll_notKeyedSeen, List.any_eq_false.mpr fun r hr => by simp [herr r hr], Bool.or_false]
  · rw [State.SessionEnded, State.afterAll_block, Block.afterAll_session]

end Sys2Proof.Machine
end

section
/-! What responses do not depend on (60_exceptions.md R124, 43_destruction.md R102, 10_state.md R12, R14): a fault before,
what a `WIPE` has cleared, and the stored key bytes. -/

namespace Sys2Proof.Machine

/-- Settles O32: an `XLATE` in `EMPTY` leaves the block, on which alone the later answers depend. -/
theorem notKeyedIsNotSticky : Obligations.NotKeyedIsNotSticky := by
  unfold Obligations.NotKeyedIsNotSticky
  intro din cs s t rs hempty hrun
  rw [runCommands_eq] at hrun
  obtain ⟨rfl, rfl⟩ := Prod.mk.inj (Option.some.inj hrun)
  refine ⟨s.afterAll (.xlate din :: cs), ?_, ?_⟩
  · rw [runCommands_eq, Block.answers_cons, Block.answer_xlate_empty din hempty, Block.after_xlate_empty din hempty]
  · rw [State.afterAll_block, State.afterAll_block, Block.afterAll_cons, Block.after_xlate_empty din hempty]

/-- Settles O45: `WIPE` answers every block alike and leaves of each the reset block. -/
theorem nothingSurvivesWipe : Obligations.NothingSurvivesWipe := by
  unfold Obligations.NothingSurvivesWipe
  intro cs s s'
  have hanswer : s.block.answer .wipe = s'.block.answer .wipe := by rw [Block.answer_wipe, Block.answer_wipe]
  have hafter : s.block.after .wipe = s'.block.after .wipe := by
    rw [Block.after_wipe, Block.after_wipe, Block.wipe_eq_reset, Block.wipe_eq_reset]
  exact runCommands_agree_of_first hanswer hafter cs

/-- Two blocks that may differ in the stored key bytes only. -/
structure Block.EqButKey (b c : Block) : Prop where
  perm : b.perm = c.perm
  indexI : b.indexI = c.indexI
  indexJ : b.indexJ = c.indexJ
  phase : b.phase = c.phase

theorem Block.EqButKey.refl (b : Block) : b.EqButKey b := ⟨rfl, rfl, rfl, rfl⟩

/-- `NEXT()` reads the array and the indices only. -/
theorem Block.EqButKey.next {b c : Block} (h : b.EqButKey c) : b.next.1 = c.next.1 ∧ b.next.2.EqButKey c.next.2 := by
  obtain ⟨hperm, hi, hj⟩ : b.next.2.perm = c.next.2.perm ∧ b.next.2.indexI = c.next.2.indexI ∧
      b.next.2.indexJ = c.next.2.indexJ := Block.advance_congr 1 h.perm h.indexI h.indexJ
  refine ⟨?_, hperm, hi, hj, h.phase⟩
  simp only [Block.next_byte, Block.entry, hperm, hi, hj]

theorem Block.EqButKey.answer {b c : Block} (h : b.EqButKey c) (i : Instr) : b.answer i = c.answer i := by
  cases i with
  | nop => rfl
  | loadkey key => rfl
  | xlate din =>
    cases hphase : b.phase with
    | ready =>
      rw [Block.answer_xlate_ready din hphase, Block.answer_xlate_ready din (h.phase ▸ hphase), h.next.1]
    | empty => rw [Block.answer_xlate_empty din hphase, Block.answer_xlate_empty din (h.phase ▸ hphase)]
  | wipe => rfl

theorem Block.EqButKey.after {b c : Block} (h : b.EqButKey c) (i : Instr) : (b.after i).EqButKey (c.after i) := by
  cases i with
  | nop => exact h
  | loadkey key =>
    rw [Block.after_loadkey_eq_keyedBlock, Block.after_loadkey_eq_keyedBlock]
    exact Block.EqButKey.refl _
  | xlate din =>
    cases hphase : b.phase with
    | ready =>
      rw [Block.after_xlate_ready din hphase, Block.after_xlate_ready din (h.phase ▸ hphase)]
      exact h.next.2
    | empty => rwa [Block.after_xlate_empty din hphase, Block.after_xlate_empty din (h.phase ▸ hphase)]
  | wipe =>
    rw [Block.after_wipe, Block.after_wipe, Block.wipe_eq_reset, Block.wipe_eq_reset]
    exact Block.EqButKey.refl _

theorem Block.EqButKey.answers {b c : Block} (h : b.EqButKey c) (cs : List Instr) : b.answers cs = c.answers cs := by
  induction cs generalizing b c with
  | nil => rfl
  | cons i cs ih => rw [Block.answers_cons, Block.answers_cons, h.answer, ih (h.after i)]

/-- Settles O46: blocks equal but for the key bytes answer each command alike and stay equal but for them. -/
theorem keyBytesNeverInfluenceResponses : Obligations.KeyBytesNeverInfluenceResponses := by
  unfold Obligations.KeyBytesNeverInfluenceResponses
  intro cs s s' hperm hi hj hphase
  have hanswers := (Block.EqButKey.mk hperm hi hj hphase).answers cs
  exact ⟨_, _, _, runCommands_eq cs s, hanswers ▸ runCommands_eq cs s'⟩

end Sys2Proof.Machine
end

section
/-! The step command by command: an accepted command, a placed word, a reset edge, and what the phase, the stored state
and the model's record change by (30_encoding.md R51, 10_state.md R10 to R13, log 2). -/

namespace Sys2Proof.Machine

/-- Settles O6: the edge's word is the accepted one, and to pass the edge touches the host's input and the counter only. -/
theorem stepRunsAcceptedCommand : Obligations.StepRunsAcceptedCommand := by
  unfold Obligations.StepRunsAcceptedCommand
  rintro s e es i hedges hrst hvalid hresponse rfl
  have hword : s.acceptedWord = some e.cmdWord :=
    acceptedWord_some_iff.mpr ⟨e, es, hedges, hrst, hvalid, hresponse, rfl⟩
  refine ⟨step_accepted hword, s.popEdge_block, ?_, ?_, s.popEdge_notKeyedSeen⟩
  · rw [State.popEdge_response, hresponse]
  · rw [State.popEdge_edges, hedges, List.tail_cons]

/-- The edge `withFetchWord` places presents the very word (log 6). -/
theorem acceptedWord_withFetchWord (s : State) (w : CommandWord) :
    (s.withFetchWord 72 w.toNat).acceptedWord = some w := by
  refine acceptedWord_some_iff.mpr ⟨_, _, rfl, rfl, rfl, rfl, ?_⟩
  rw [toNat_mod_two_pow_72, BitVec.ofNat_toNat, BitVec.setWidth_eq]

theorem popEdge_withFetchWord (s : State) (nbits w : Nat) :
    (s.withFetchWord nbits w).popEdge = { s with response := none, edgeCount := s.edgeCount + 1 } := rfl

/-- Settles O7: the placed word is accepted, and it decodes to the command. -/
theorem placedWordRunsNext : Obligations.PlacedWordRunsNext := by
  unfold Obligations.PlacedWordRunsNext
  intro s i _
  rw [step_accepted (acceptedWord_withFetchWord s (encode i)), decode_encode, popEdge_withFetchWord]

/-- Settles O8: the one outcome of every command. -/
theorem everyCommandAnswers : Obligations.EveryCommandAnswers := by
  unfold Obligations.EveryCommandAnswers
  exact fun i s => ⟨_, s.block.answer i, exec_eq i s, rfl, rfl, rfl, s.transact_eq i⟩

theorem State.applyReset_stKeyed (s : State) : s.applyReset.stKeyed = false := by
  rw [State.stKeyed, State.applyReset_block, Block.reset_phase, Phase.bit]

/-- Nothing pending: a command can be accepted at an edge without `rst` (log 8, log 20). -/
theorem State.cmdReady_of_response_none {s : State} (h : s.response = none) : s.cmdReady false = true := by
  simp [State.cmdReady, State.rspValid, h]

/-- A response pending: no command can be accepted (30_encoding.md R51). -/
theorem State.cmdReady_of_response_some {s : State} {r : Response} (h : s.response = some r) (rst : Bool) :
    s.cmdReady rst = false := by
  simp [State.cmdReady, State.rspValid, h]

theorem deliveredResponse_of_rst {s : State} {e : Edge} {es : List Edge} (hedges : s.edges = e :: es)
    (hrst : e.rst = true) : s.deliveredResponse = none := by
  simp [State.deliveredResponse, hedges, hrst]

/-- Settles O10: reset is what the step does at such an edge, and it leaves nothing pending. -/
theorem resetEdgeGivesResetState : Obligations.ResetEdgeGivesResetState := by
  unfold Obligations.ResetEdgeGivesResetState
  intro s e es hedges hrst
  refine ⟨by rw [State.cmdReady, hrst]; rfl, acceptedWord_of_rst hedges hrst, deliveredResponse_of_rst hedges hrst,
    s.popEdge.applyReset, step_of_rst hedges hrst, State.applyReset_block _, State.applyReset_response _, ?_,
    State.applyReset_stKeyed _, State.cmdReady_of_response_none (State.applyReset_response _), ?_⟩
  · rw [State.rspValid, State.applyReset_response, Option.isSome_none]
  · rw [State.applyReset_edges, State.popEdge_edges, hedges, List.tail_cons]

/-- Settles O33: of all a step can do, only an accepted command with a response `ERR` touches the record. -/
theorem notKeyedRecordIsExact : Obligations.NotKeyedRecordIsExact := by
  unfold Obligations.NotKeyedRecordIsExact
  intro s t hstep
  rcases step_effect hstep with ⟨w, hw, -, -, hseen⟩ | ⟨hw, -, -, -, hseen⟩ | ⟨hw, -, -, hseen⟩
  · rw [hseen, Bool.or_eq_true, Block.answer_err_iff]
    refine or_congr_right ⟨fun ⟨⟨din, hdecode⟩, hempty⟩ => ⟨hempty, w, din, hw, hdecode⟩, ?_⟩
    rintro ⟨hempty, w', din, hw', hdecode⟩
    obtain rfl := Option.some.inj (hw.symm.trans hw')
    exact ⟨⟨din, hdecode⟩, hempty⟩
  · simp [hw, hseen]
  · simp [hw, hseen]

theorem strictStep_of_step {s t : State} (h : step s = .next t) :
    strictStep s = if t.notKeyedSeen then .fault .notKeyed else .next t := by
  rw [strictStep, h]

/-- Settles O34: `strictStep` reads the record of the next state, which keeps that of the state. -/
theorem strictStepStopsAtNotKeyed : Obligations.StrictStepStopsAtNotKeyed := by
  unfold Obligations.StrictStepStopsAtNotKeyed
  intro s
  obtain ⟨t, hstep⟩ := exists_step_next s
  have hkept : s.notKeyedSeen = true → t.notKeyedSeen = true :=
    fun hs => (notKeyedRecordIsExact s t hstep).mpr (.inl hs)
  have hfault : t.notKeyedSeen = true → strictStep s = .fault .notKeyed :=
    fun ht => by rw [strictStep_of_step hstep, if_pos ht]
  exact ⟨t, hstep, fun ht => by simp [strictStep_of_step hstep, ht], hfault, fun hs => hfault (hkept hs)⟩

/-- Of the commands only `LOADKEY` makes an `EMPTY` block `READY`. -/
theorem Block.eq_loadkey_of_becomes_ready {b : Block} {i : Instr} (hempty : b.phase = .empty)
    (hready : (b.after i).phase = .ready) : ∃ key, i = .loadkey key := by
  have hne : b.phase ≠ .ready := by rw [hempty]; decide
  cases i with
  | nop => exact absurd hready hne
  | loadkey key => exact ⟨key, rfl⟩
  | xlate din =>
    rw [Block.after_xlate_empty din hempty] at hready
    exact absurd hready hne
  | wipe =>
    rw [Block.after_wipe, Block.wipe_phase] at hready
    exact absurd hready nofun

/-- Of the commands only `WIPE` makes a `READY` block `EMPTY`. -/
theorem Block.eq_wipe_of_becomes_empty {b : Block} {i : Instr} (hready : b.phase = .ready)
    (hempty : (b.after i).phase = .empty) : i = .wipe := by
  have hne : b.phase ≠ .empty := by rw [hready]; decide
  cases i with
  | nop => exact absurd hempty hne
  | loadkey key =>
    rw [Block.after_loadkey, Block.loadkey_phase] at hempty
    exact absurd hempty nofun
  | xlate din =>
    rw [Block.after_xlate_ready din hready, Block.next_phase] at hempty
    exact absurd hempty hne
  | wipe => rfl

/-- Settles O47: the two transitions of an accepted command; reset gives `EMPTY`, and any other step keeps the phase. -/
theorem phaseChangesOnlyByCommand : Obligations.PhaseChangesOnlyByCommand := by
  unfold Obligations.PhaseChangesOnlyByCommand
  intro s t hstep
  rcases step_effect hstep with ⟨w, hw, hblock, -⟩ | ⟨-, hrst, hblock, -⟩ | ⟨-, hblock, -⟩
  · rw [hblock]
    refine ⟨fun hempty hready => ?_, fun hready hempty => .inl ⟨w, hw, Block.eq_wipe_of_becomes_empty hready hempty⟩⟩
    obtain ⟨key, hdecode⟩ := Block.eq_loadkey_of_becomes_ready hempty hready
    exact ⟨w, key, hw, hdecode⟩
  · rw [hblock, Block.reset_phase]
    exact ⟨fun _ => nofun, fun _ _ => .inr hrst⟩
  · rw [hblock]
    exact ⟨fun hempty hready => absurd (hempty.symm.trans hready) nofun,
      fun hready hempty => absurd (hready.symm.trans hempty) nofun⟩

/-- What each command writes: `LOADKEY` and `WIPE` all of the block, `XLATE` in `READY` the array and the indices, and
the others nothing. -/
theorem Block.after_writes (b : Block) (i : Instr) :
    (i = .wipe ∨ ∃ key, i = .loadkey key) ∨
    ((b.after i).keyBytes = b.keyBytes ∧ (∃ din, i = .xlate din) ∧ b.phase = .ready) ∨ b.after i = b := by
  cases i with
  | nop => exact .inr (.inr b.after_nop)
  | loadkey key => exact .inl (.inr ⟨key, rfl⟩)
  | xlate din =>
    cases hphase : b.phase with
    | ready =>
      refine .inr (.inl ⟨?_, ⟨din, rfl⟩, rfl⟩)
      rw [Block.after_xlate_ready din hphase, Block.next_keyBytes]
    | empty => exact .inr (.inr (Block.after_xlate_empty din hphase))
  | wipe => exact .inl (.inl rfl)

/-- Settles O48: what an accepted command writes; any other step writes at an edge with `rst` or not at all. -/
theorem stateWrittenOnlyByItsWriters : Obligations.StateWrittenOnlyByItsWriters := by
  unfold Obligations.StateWrittenOnlyByItsWriters
  intro s t hstep
  rcases step_effect hstep with ⟨w, hw, hblock, -⟩ | ⟨-, hrst, -⟩ | ⟨-, hblock, -⟩
  · rcases s.block.after_writes (decode w) with hall | ⟨hkey, ⟨din, hdecode⟩, hready⟩ | hsame
    · exact .inr (.inl ⟨w, hw, hall⟩)
    · exact .inr (.inr ⟨by rw [hblock, hkey], .inl ⟨w, din, hw, hdecode, hready⟩⟩)
    · rw [hblock, hsame]
      exact .inr (.inr ⟨rfl, .inr ⟨rfl, rfl, rfl⟩⟩)
  · exact .inl hrst
  · rw [hblock]
    exact .inr (.inr ⟨rfl, .inr ⟨rfl, rfl, rfl⟩⟩)

theorem State.stKeyed_iff (s : State) : s.stKeyed = true ↔ s.block.phase = .ready := by
  rw [State.stKeyed]
  cases s.block.phase <;> simp [Phase.bit]

theorem Block.status_iff (b : Block) : b.status = 1#1 ↔ b.phase = .ready := by
  rw [Block.status]
  cases b.phase <;> simp [Phase.bit]

/-- Settles O53: both are the phase bit, which is 0 in the reset block. -/
theorem statusShowsPhase : Obligations.StatusShowsPhase := by
  unfold Obligations.StatusShowsPhase
  exact ⟨fun s => ⟨s.stKeyed_iff, s.block.status_iff⟩, State.reset_stKeyed, rfl⟩

end Sys2Proof.Machine
end

section
/-! The handshake (30_encoding.md R51): a pending response, and a run of clock edges beside the commands it accepted. -/

namespace Sys2Proof.Machine

theorem acceptedWord_of_response_some {s : State} {r : Response} (h : s.response = some r) : s.acceptedWord = none := by
  cases hw : s.acceptedWord with
  | none => rfl
  | some w =>
    obtain ⟨e, es, -, -, -, hnone, -⟩ := acceptedWord_some_iff.mp hw
    exact absurd (hnone.symm.trans h) nofun

/-- At an edge without `rst` what is pending is delivered if the host is ready for it. -/
theorem deliveredResponse_cons {s : State} {e : Edge} {es : List Edge} (hedges : s.edges = e :: es)
    (hrst : e.rst = false) : s.deliveredResponse = if e.rspReady then s.response else none := by
  simp [State.deliveredResponse, hedges, hrst]

theorem deliveredResponse_of_response_none {s : State} (h : s.response = none) : s.deliveredResponse = none := by
  cases hedges : s.edges with
  | nil => rw [State.deliveredResponse, hedges]
  | cons e es => simp [State.deliveredResponse, hedges, h]

theorem passEdge_cons {s : State} {e : Edge} {es : List Edge} (hedges : s.edges = e :: es) (hrst : e.rst = false) :
    s.passEdge = if e.rspReady then s.popEdge.deliver else s.popEdge := by
  simp [State.passEdge, hedges, hrst]

/-- Settles O54: no command is accepted, so the edge is passed, and `rsp_ready` alone decides what becomes of the
response. -/
theorem handshakeHoldsResponse : Obligations.HandshakeHoldsResponse := by
  unfold Obligations.HandshakeHoldsResponse
  intro s e es r hedges hrst hr
  have hstep := step_passed (acceptedWord_of_response_some hr)
  have hdelivered := deliveredResponse_cons hedges hrst
  have htail : s.popEdge.edges = es := by rw [State.popEdge_edges, hedges, List.tail_cons]
  have hvalid : s.rspValid = true := by rw [State.rspValid, hr, Option.isSome_some]
  rw [passEdge_cons hedges hrst] at hstep
  refine ⟨State.cmdReady_of_response_some hr _, hvalid, State.rspWord_of_response hr,
    acceptedWord_of_response_some hr, ?_⟩
  cases hready : e.rspReady with
  | false =>
    rw [hready] at hstep hdelivered
    have hkept : s.popEdge.response = some r := by rw [State.popEdge_response, hr]
    refine ⟨s.popEdge, hstep, s.popEdge_block, htail, fun _ => ⟨hdelivered, hkept, ?_⟩, nofun⟩
    rw [State.rspWord_of_response hkept, State.rspWord_of_response hr]
  | true =>
    rw [hready] at hstep hdelivered
    exact ⟨s.popEdge.deliver, hstep, State.deliver_block _, htail, nofun,
      fun _ => ⟨hdelivered.trans hr, State.deliver_response _,
        State.cmdReady_of_response_none (State.deliver_response _)⟩⟩

/-- The commands `is` and the deliveries `rs` account for how the machine came from `s` to `t`: the block and the record
are those the commands leave, and what was pending, then the commands' responses, are the deliveries, then what is
pending now. -/
structure Accounts (s : State) (is : List Instr) (rs : List Response) (t : State) : Prop where
  block : t.block = s.block.afterAll is
  seen : t.notKeyedSeen = (s.notKeyedSeen || (s.block.answers is).any Response.err)
  responses : s.response.toList ++ s.block.answers is = rs ++ t.response.toList

theorem Accounts.refl (s : State) : Accounts s [] [] s where
  block := rfl
  seen := (Bool.or_false _).symm
  responses := List.append_nil _

theorem Accounts.trans {s t u : State} {is js : List Instr} {rs qs : List Response} (h : Accounts s is rs t)
    (h' : Accounts t js qs u) : Accounts s (is ++ js) (rs ++ qs) u where
  block := by rw [h'.block, h.block, Block.afterAll_append]
  seen := by rw [h'.seen, h.seen, h.block, Block.answers_append, List.any_append, Bool.or_assoc]
  responses := by
    rw [Block.answers_append, ← h.block, ← List.append_assoc, h.responses, List.append_assoc, h'.responses,
      List.append_assoc]

/-- An edge at which nothing is accepted and which is no reset. -/
theorem accounts_passEdge {s : State} (h : ∀ e ∈ s.edges, e.rst = false) :
    Accounts s [] s.deliveredResponse.toList s.passEdge := by
  cases hedges : s.edges with
  | nil =>
    rw [State.passEdge, State.deliveredResponse, hedges]
    exact Accounts.refl s
  | cons e es =>
    have hrst : e.rst = false := h e (by rw [hedges]; exact List.mem_cons_self)
    rw [passEdge_cons hedges hrst, deliveredResponse_cons hedges hrst]
    cases e.rspReady with
    | true => exact ⟨rfl, (Bool.or_false _).symm, rfl⟩
    | false => exact ⟨rfl, (Bool.or_false _).symm, List.append_nil _⟩

/-- One step without a reset is accounted for by the command it accepted and the response it delivered. -/
theorem accounts_step {s t : State} (h : ∀ e ∈ s.edges, e.rst = false) (hstep : step s = .next t) :
    Accounts s (s.acceptedWord.map decode).toList s.deliveredResponse.toList t := by
  rcases step_cases hstep with ⟨w, hw, hexec⟩ | ⟨hnone, rfl⟩
  · obtain rfl := Host.Outcome.next.inj ((exec_eq _ _).symm.trans hexec)
    obtain ⟨e, es, -, -, -, hresponse, -⟩ := acceptedWord_some_iff.mp hw
    rw [hw, deliveredResponse_of_response_none hresponse]
    exact {
      block := rfl
      seen := by simp [State.afterTransaction]
      responses := by simp [hresponse] }
  · rw [hnone]
    exact accounts_passEdge h

theorem passEdge_edges (s : State) : s.passEdge.edges = s.edges.tail := by
  rcases passEdge_cases s with ⟨hedges, hpass⟩ | ⟨e, es, -, -, hpass⟩ | ⟨e, es, -, -, -, hpass⟩ |
    ⟨e, es, -, -, -, hpass⟩
  · rw [hpass, hedges, List.tail_nil]
  · rw [hpass, State.applyReset_edges, State.popEdge_edges]
  · rw [hpass, State.deliver_edges, State.popEdge_edges]
  · rw [hpass, State.popEdge_edges]

/-- A step uses up one clock edge of the host's input. -/
theorem step_edges {s t : State} (hstep : step s = .next t) : t.edges = s.edges.tail := by
  rcases step_cases hstep with ⟨w, -, hexec⟩ | ⟨-, rfl⟩
  · obtain rfl := Host.Outcome.next.inj ((exec_eq _ _).symm.trans hexec)
    exact s.popEdge_edges
  · exact passEdge_edges s

theorem history_succ {s t : State} (hstep : step s = .next t) (n : Nat) :
    history (n + 1) s =
      ⟨(s.acceptedWord.map decode).toList ++ (history n t).accepted,
       s.deliveredResponse.toList ++ (history n t).delivered, (history n t).final⟩ := by
  rw [history, hstep]

/-- Any number of steps without a reset are accounted for by their history. -/
theorem accounts_history (n : Nat) {s : State} (h : ∀ e ∈ s.edges, e.rst = false) :
    Accounts s (history n s).accepted (history n s).delivered (history n s).final := by
  induction n generalizing s with
  | zero => exact Accounts.refl s
  | succ n ih =>
    obtain ⟨t, hstep⟩ := exists_step_next s
    have ht : ∀ e ∈ t.edges, e.rst = false := fun e he => h e (List.mem_of_mem_tail (step_edges hstep ▸ he))
    rw [history_succ hstep]
    exact (accounts_step h hstep).trans (ih ht)

/-- Settles O55: the run of the accepted commands, beside the account their history gives of the final state. -/
theorem handshakeRefinesTransactions : Obligations.HandshakeRefinesTransactions := by
  unfold Obligations.HandshakeRefinesTransactions
  intro n s hresponse hedges
  have haccount := accounts_history n hedges
  refine ⟨_, _, runCommands_eq _ s, ?_, ?_, ?_⟩
  · rw [State.afterAll_block, haccount.block]
  · rw [State.afterAll_notKeyedSeen, haccount.seen]
  · rw [← haccount.responses, hresponse, Option.toList_none, List.nil_append]

theorem driveEdges_cons (i : Instr) (cs : List Instr) :
    driveEdges (i :: cs) =
      { rst := false, cmdValid := true, cmdWord := encode i, rspReady := false } ::
        { rst := false, cmdValid := false, cmdWord := 0, rspReady := true } :: driveEdges cs := rfl

theorem driveEdges_rst (cs : List Instr) : ∀ e ∈ driveEdges cs, e.rst = false := by
  induction cs with
  | nil => exact nofun
  | cons i cs ih =>
    rw [driveEdges_cons]
    exact List.forall_mem_cons.mpr ⟨rfl, List.forall_mem_cons.mpr ⟨rfl, ih⟩⟩

/-- The two edges of a transaction: the command is accepted at the first and its response delivered at the second. -/
theorem driveEdges_two_steps {s : State} {i : Instr} {cs : List Instr} (hresponse : s.response = none)
    (hedges : s.edges = driveEdges (i :: cs)) :
    ∃ t u, step s = .next t ∧ step t = .next u ∧ s.acceptedWord = some (encode i) ∧ t.acceptedWord = none ∧
      u.response = none ∧ u.edges = driveEdges cs := by
  rw [driveEdges_cons] at hedges
  have hword : s.acceptedWord = some (encode i) :=
    acceptedWord_some_iff.mpr ⟨_, _, hedges, rfl, rfl, hresponse, rfl⟩
  have hstep := (step_accepted hword).trans (exec_eq _ _)
  obtain ⟨t, ht⟩ : ∃ t : State, t = { s.popEdge.afterTransaction (decode (encode i)) with
    response := some (s.popEdge.block.answer (decode (encode i))) } := ⟨_, rfl⟩
  rw [← ht] at hstep
  have hpending : t.response = some (s.popEdge.block.answer (decode (encode i))) := by rw [ht]
  have htail := step_edges hstep
  rw [hedges, List.tail_cons] at htail
  have hnone := acceptedWord_of_response_some hpending
  have hstep' := step_passed hnone
  refine ⟨t, t.passEdge, hstep, hstep', hword, hnone, ?_, ?_⟩
  · rw [passEdge_cons htail rfl]
    rfl
  · rw [passEdge_edges, htail, List.tail_cons]

/-- Two edges a command, the host's input is used up with all commands accepted and nothing left pending. -/
theorem history_driveEdges (cs : List Instr) {s : State} (hresponse : s.response = none)
    (hedges : s.edges = driveEdges cs) :
    (history (2 * cs.length) s).accepted = cs ∧ (history (2 * cs.length) s).final.edges = [] ∧
      (history (2 * cs.length) s).final.response = none := by
  induction cs generalizing s with
  | nil => exact ⟨rfl, hedges, hresponse⟩
  | cons i cs ih =>
    obtain ⟨t, u, hstep, hstep', hword, hnone, hu, hrest⟩ := driveEdges_two_steps hresponse hedges
    obtain ⟨haccepted, hfinal, hnothing⟩ := ih hu hrest
    rw [List.length_cons, Nat.mul_succ, history_succ hstep, history_succ hstep']
    refine ⟨?_, hfinal, hnothing⟩
    simp [hword, hnone, haccepted]

/-- Settles O56: all commands are accepted and nothing is left pending, so their responses are the deliveries. -/
theorem drivenCommandsAreCarriedOut : Obligations.DrivenCommandsAreCarriedOut := by
  unfold Obligations.DrivenCommandsAreCarriedOut
  intro cs s hresponse hedges
  obtain ⟨haccepted, hfinal, hnothing⟩ := history_driveEdges cs hresponse hedges
  obtain ⟨u, rs, hrun, hblock, -, hresponses⟩ :=
    handshakeRefinesTransactions (2 * cs.length) s hresponse (hedges ▸ driveEdges_rst cs)
  rw [haccepted] at hrun
  rw [hnothing, Option.toList_none, List.append_nil] at hresponses
  exact ⟨u, haccepted, hfinal, hnothing, hresponses ▸ hrun, hblock⟩

end Sys2Proof.Machine
end
